-- ==== Sys2Proof/Word.lean ====
section
/-! DEFINITION. The widths of 00_scope.md R5 and R7: every value is an unsigned integer of a fixed width. -/

namespace Sys2Proof

/-- `u8`: one wire byte (R7). -/
abbrev Byte := BitVec 8

/-- `u16`: a GT911 register address, a data field, a coordinate (R5 `ADDR_W`, `DATA_W`). -/
abbrev Half := BitVec 16

/-- `u20`: a coordinate sum (R5 `AG_SUM_W`). -/
abbrev Sum := BitVec 20

/-- `u4`: a point count, or the four flags of `STATUS`. -/
abbrev Nibble := BitVec 4

/-- `u48`: the operand of a command or the data of a response, six byte lanes (R70, R74). -/
abbrev Lanes := BitVec 48

/-- `u64`: a command word or a response word (R5 `CMD_W`, `RSP_W`). -/
abbrev Word := BitVec 64

end Sys2Proof
end

