-- ==== Sys2Proof/Config.lean ====
section
/-! DEFINITION. The constants of 00_scope.md R5. There is no free value: the spec leaves no behaviour of the block open
(93_implementation_defined.md, part 1). -/

namespace Sys2Proof.Config

/-- `AG_MAXN`: the largest number of points the aggregator accepts. -/
def agMaxN : Nat := 15

/-- The value at which `CK.CNT` saturates (`CK_CNT_W`: 8 bits, saturating at 255). -/
def ckCntMax : Nat := 255

/-- `BLOB_LEN`: bytes of the configuration blob. -/
def blobLen : Nat := 186

/-- `CK_LEN`: payload bytes the checksum covers, blob offsets 0 to 183. -/
def ckLen : Nat := 184

/-- `CK_OFF`: blob offset of the checksum byte. -/
def ckOff : Nat := 184

/-- `FRESH_OFF`: blob offset of the refresh flag. -/
def freshOff : Nat := 185

/-- `CK_MOD`: modulus of the checksum. -/
def ckMod : Nat := 256

/-- `PT_BASE`: address of point block 0 (context). -/
def ptBase : Half := 0x8150#16

/-- `PT_STRIDE`: bytes between point blocks (context). -/
def ptStride : Nat := 8

/-- `PT_READ`: bytes read per point block (context). -/
def ptRead : Nat := 6

/-- `PT_CTRL_MAX`: the largest point count the controller reports (context). -/
def ptCtrlMax : Nat := 5

/-- `I2C_ADDR`: the peripheral address of the GT911 (context only). -/
def i2cAddr : Byte := 0x5D#8

end Sys2Proof.Config
end

