-- ==== Sys2Proof/Syntax.lean ====
section
/-! DEFINITION. The fourteen operations of 30_encoding.md R76 with typed operands (the abstract level), their formats
(R71), and a line of assembly (R82). -/

namespace Sys2Proof

/-- The seven operand formats of R71. -/
inductive Format where
  | z | h | w2 | w4 | w6 | b | p
  deriving DecidableEq, Repr

/-- The fourteen operations by name (R76). -/
inductive Op where
  | nop | rst | rdst
  | enca | decl | encl | rev4 | decp
  | ckclr | ckpush | ckget
  | agclr | agpush | agmean
  deriving DecidableEq, Repr

/-- A decoded command: one constructor per row of the opcode table, the operand fields in the table's order. Every
value of every field is legal (R73), so every term of this type is an instruction of the machine. -/
inductive Instr where
  /-- `NOP` (R140). -/
  | nop
  /-- `RST` (R141). -/
  | rst
  /-- `RDST` (R142). -/
  | rdst
  /-- `ENCA addr` (R91). -/
  | enca (addr : Half)
  /-- `DECL w0, w1` (R92). -/
  | decl (w0 w1 : Byte)
  /-- `ENCL v` (R93). -/
  | encl (v : Half)
  /-- `REV4 w0, w1, w2, w3` (R94). -/
  | rev4 (w0 w1 w2 w3 : Byte)
  /-- `DECP w0, w1, w2, w3, w4, w5` (R95). -/
  | decp (w0 w1 w2 w3 w4 w5 : Byte)
  /-- `CKCLR` (R110). -/
  | ckclr
  /-- `CKPUSH b` (R111). -/
  | ckpush (b : Byte)
  /-- `CKGET` (R112). -/
  | ckget
  /-- `AGCLR` (R125). -/
  | agclr
  /-- `AGPUSH x, y` (R126). -/
  | agpush (x y : Half)
  /-- `AGMEAN` (R127). -/
  | agmean
  deriving DecidableEq, Repr

/-- The operation an instruction is an instance of. -/
def Instr.op : Instr → Op
  | .nop => .nop
  | .rst => .rst
  | .rdst => .rdst
  | .enca _ => .enca
  | .decl _ _ => .decl
  | .encl _ => .encl
  | .rev4 _ _ _ _ => .rev4
  | .decp _ _ _ _ _ _ => .decp
  | .ckclr => .ckclr
  | .ckpush _ => .ckpush
  | .ckget => .ckget
  | .agclr => .agclr
  | .agpush _ _ => .agpush
  | .agmean => .agmean

/-- The widths in bits of an operation's operand fields, in the order R82 writes them (R71, R73). -/
def Op.operandWidths : Op → List Nat
  | .nop => []
  | .rst => []
  | .rdst => []
  | .enca => [16]
  | .decl => [8, 8]
  | .encl => [16]
  | .rev4 => [8, 8, 8, 8]
  | .decp => [8, 8, 8, 8, 8, 8]
  | .ckclr => []
  | .ckpush => [8]
  | .ckget => []
  | .agclr => []
  | .agpush => [16, 16]
  | .agmean => []

/-- One line of a program as R82 writes it: a mnemonic with its operand numbers, or a literal word (`.word`). The
text form of the line (spaces, commas, comments, decimal or hexadecimal) is notation and is not modelled. -/
inductive AsmLine where
  | op (mnemonic : Op) (operands : List Nat)
  | word (literal : Nat)
  deriving DecidableEq, Repr

end Sys2Proof
end

