-- ==== Sys2Proof/WellFormed.lean ====
section
/-! DEFINITION. Which lines of assembly are well formed (30_encoding.md R82, R73). An `Instr` needs no check: its
fields are typed at their full width and every value is legal (R73). Which command WORDS are legal is decided by
the decoder's own table (Sys2Proof/Decode.lean). -/

namespace Sys2Proof

/-- A line gives its operation as many operands as the "operand fields" column of R76 names. -/
def AsmLine.arityOk : AsmLine → Bool
  | .op m xs => xs.length == m.operandWidths.length
  | .word _ => true

/-- Every number of a line fits its field: `u8` in 0 to 255, `u16` in 0 to 65535 (R73), a literal word in 64 bits. -/
def AsmLine.rangeOk : AsmLine → Bool
  | .op m xs => (xs.zip m.operandWidths).all fun xw => decide (xw.1 < 2 ^ xw.2)
  | .word w => decide (w < 2 ^ 64)

/-- A line the assembler accepts. -/
def AsmLine.wellFormed (l : AsmLine) : Bool :=
  l.arityOk && l.rangeOk

end Sys2Proof
end

