-- ==== Sys2Proof/Decode.lean ====
section
/-! DEFINITION. Command words: the opcode map (30_encoding.md R76), the decoder (R77), the encoder (R70, R71), the
assembler (R82), and the reading of an opcode-table word. -/

namespace Sys2Proof

/-! ## The opcode map -/

/-- The opcode byte of each operation (R76). -/
def Op.opcode : Op → Byte
  | .nop => 0x00#8
  | .rst => 0x01#8
  | .rdst => 0x02#8
  | .enca => 0x10#8
  | .decl => 0x11#8
  | .encl => 0x12#8
  | .rev4 => 0x13#8
  | .decp => 0x14#8
  | .ckclr => 0x20#8
  | .ckpush => 0x21#8
  | .ckget => 0x22#8
  | .agclr => 0x30#8
  | .agpush => 0x31#8
  | .agmean => 0x32#8

/-- The format column of R76. -/
def Op.format : Op → Format
  | .nop => .z
  | .rst => .z
  | .rdst => .z
  | .enca => .h
  | .decl => .w2
  | .encl => .h
  | .rev4 => .w4
  | .decp => .w6
  | .ckclr => .z
  | .ckpush => .b
  | .ckget => .z
  | .agclr => .z
  | .agpush => .p
  | .agmean => .z

/-- How many low operand bits a format uses; the operand bits above them are reserved (R71, R79). -/
def Format.operandBits : Format → Nat
  | .z => 0
  | .h => 16
  | .w2 => 16
  | .w4 => 32
  | .w6 => 48
  | .b => 8
  | .p => 32

/-- The `match` column of R76. -/
def Op.pattern : Op → Word
  | .nop => 0x0000000000000000#64
  | .rst => 0x0100000000000000#64
  | .rdst => 0x0200000000000000#64
  | .enca => 0x1000000000000000#64
  | .decl => 0x1100000000000000#64
  | .encl => 0x1200000000000000#64
  | .rev4 => 0x1300000000000000#64
  | .decp => 0x1400000000000000#64
  | .ckclr => 0x2000000000000000#64
  | .ckpush => 0x2100000000000000#64
  | .ckget => 0x2200000000000000#64
  | .agclr => 0x3000000000000000#64
  | .agpush => 0x3100000000000000#64
  | .agmean => 0x3200000000000000#64

/-- The `mask` column of R76: the opcode, the `rsv` byte and every reserved operand bit. -/
def Op.mask : Op → Word
  | .nop => 0xFFFFFFFFFFFFFFFF#64
  | .rst => 0xFFFFFFFFFFFFFFFF#64
  | .rdst => 0xFFFFFFFFFFFFFFFF#64
  | .enca => 0xFFFFFFFFFFFF0000#64
  | .decl => 0xFFFFFFFFFFFF0000#64
  | .encl => 0xFFFFFFFFFFFF0000#64
  | .rev4 => 0xFFFFFFFF00000000#64
  | .decp => 0xFFFF000000000000#64
  | .ckclr => 0xFFFFFFFFFFFFFFFF#64
  | .ckpush => 0xFFFFFFFFFFFFFF00#64
  | .ckget => 0xFFFFFFFFFFFFFFFF#64
  | .agclr => 0xFFFFFFFFFFFFFFFF#64
  | .agpush => 0xFFFFFFFF00000000#64
  | .agmean => 0xFFFFFFFFFFFFFFFF#64

/-- The rows of the opcode map, in its order. -/
def Op.all : List Op :=
  [.nop, .rst, .rdst, .enca, .decl, .encl, .rev4, .decp, .ckclr, .ckpush, .ckget, .agclr, .agpush, .agmean]

/-! ## The decoder -/

/-- Why a command word is no instruction (R77). -/
inductive DecodeError where
  /-- The opcode field is not in the opcode map (R151). -/
  | illop
  /-- The opcode is legal and a reserved bit is 1 (R152). -/
  | rsvd
  deriving DecidableEq, Repr

/-- Command bits 63:56 (R70). -/
def opcodeField (c : Word) : Byte :=
  c.extractLsb' 56 8

/-- Byte lane `k` of the operand: command bits `8k+7:8k` (R72). -/
def operandByte (c : Word) (k : Nat) : Byte :=
  c.extractLsb' (8 * k) 8

/-- The 16-bit number in lanes `k` and `k+1` of the operand: command bits `8k+15:8k` (R71 formats H and P). -/
def operandHalf (c : Word) (k : Nat) : Half :=
  c.extractLsb' (8 * k) 16

/-- The row of R76 with this opcode; all eight bits are compared. -/
def rowOf (opcode : Byte) : Option Op :=
  Op.all.find? fun m => m.opcode == opcode

/-- The operand fields of a legal word of this row (R71). -/
def extract (m : Op) (c : Word) : Instr :=
  match m with
  | .nop => .nop
  | .rst => .rst
  | .rdst => .rdst
  | .enca => .enca (operandHalf c 0)
  | .decl => .decl (operandByte c 0) (operandByte c 1)
  | .encl => .encl (operandHalf c 0)
  | .rev4 => .rev4 (operandByte c 0) (operandByte c 1) (operandByte c 2) (operandByte c 3)
  | .decp =>
    .decp (operandByte c 0) (operandByte c 1) (operandByte c 2) (operandByte c 3) (operandByte c 4) (operandByte c 5)
  | .ckclr => .ckclr
  | .ckpush => .ckpush (operandByte c 0)
  | .ckget => .ckget
  | .agclr => .agclr
  | .agpush => .agpush (operandHalf c 0) (operandHalf c 2)
  | .agmean => .agmean

/-- R77: the opcode test first, then the reserved bits, then the fields. Total on all words, independent of the
state. -/
def decode (c : Word) : Except DecodeError Instr :=
  match rowOf (opcodeField c) with
  | none => .error .illop
  | some m => if c &&& m.mask = m.pattern then .ok (extract m c) else .error .rsvd

/-! ## The encoder -/

/-- The layout common to all commands: opcode, the reserved byte 0x00, operand (R70). -/
def commandWord (opcode : Byte) (operand : Lanes) : Word :=
  opcode ++ 0x00#8 ++ operand

/-- The operand bits of an instruction, reserved bits zero (R71); lane 0 stands lowest. -/
def operandOf : Instr → Lanes
  | .nop => 0#48
  | .rst => 0#48
  | .rdst => 0#48
  | .enca addr => 0#32 ++ addr
  | .decl w0 w1 => 0#32 ++ w1 ++ w0
  | .encl v => 0#32 ++ v
  | .rev4 w0 w1 w2 w3 => 0#16 ++ w3 ++ w2 ++ w1 ++ w0
  | .decp w0 w1 w2 w3 w4 w5 => w5 ++ w4 ++ w3 ++ w2 ++ w1 ++ w0
  | .ckclr => 0#48
  | .ckpush b => 0#40 ++ b
  | .ckget => 0#48
  | .agclr => 0#48
  | .agpush x y => 0#16 ++ y ++ x
  | .agmean => 0#48

/-- The command word of an instruction (R70, R71, R76). -/
def encode (i : Instr) : Word :=
  commandWord i.op.opcode (operandOf i)

/-! ## The assembler -/

/-- The instruction a mnemonic and its operand numbers stand for (R82), where the number of operands is right. -/
def instrOf (m : Op) (xs : List Nat) : Option Instr :=
  match m, xs with
  | .nop, [] => some .nop
  | .rst, [] => some .rst
  | .rdst, [] => some .rdst
  | .enca, [a] => some (.enca (BitVec.ofNat 16 a))
  | .decl, [a, b] => some (.decl (BitVec.ofNat 8 a) (BitVec.ofNat 8 b))
  | .encl, [a] => some (.encl (BitVec.ofNat 16 a))
  | .rev4, [a, b, c, d] =>
    some (.rev4 (BitVec.ofNat 8 a) (BitVec.ofNat 8 b) (BitVec.ofNat 8 c) (BitVec.ofNat 8 d))
  | .decp, [a, b, c, d, e, f] =>
    some (.decp (BitVec.ofNat 8 a) (BitVec.ofNat 8 b) (BitVec.ofNat 8 c) (BitVec.ofNat 8 d) (BitVec.ofNat 8 e)
      (BitVec.ofNat 8 f))
  | .ckclr, [] => some .ckclr
  | .ckpush, [a] => some (.ckpush (BitVec.ofNat 8 a))
  | .ckget, [] => some .ckget
  | .agclr, [] => some .agclr
  | .agpush, [a, b] => some (.agpush (BitVec.ofNat 16 a) (BitVec.ofNat 16 b))
  | .agmean, [] => some .agmean
  | _, _ => none

/-- R82: the command word of a well-formed line. An operation line always has zero in every reserved bit; any other
word can be written only as a literal. -/
def assemble (l : AsmLine) : Option Word :=
  if l.wellFormed then
    match l with
    | .op m xs => (instrOf m xs).map encode
    | .word w => some (BitVec.ofNat 64 w)
  else none

/-! ## Words of the opcode table -/

/-- The command word whose low `nbits` bits are those of `w` and whose other bits are zero. The table numbers the
bits of a command word as R6 does, so no byte order enters (notes/assumptions/7.md). -/
def tableWord (nbits w : Nat) : Word :=
  BitVec.ofNat 64 (w % 2 ^ nbits)

/-- What the decoder reads from an opcode-table word. -/
def decodeTableWord (nbits w : Nat) : Option Instr :=
  match decode (tableWord nbits w) with
  | .ok i => some i
  | .error _ => none

end Sys2Proof
end

