-- ==== Sys2Proof/Machine/State.lean ====
section
/-! DEFINITION. The machine's state: the six registers of 10_state.md R20, and the block's interface (what the host has
yet to present, what it has been answered, the reset input) as plain data. -/

namespace Sys2Proof.Machine

/-- What the host does to the block (00_scope.md R15). -/
inductive HostEvent where
  /-- One 64-bit command word is presented. -/
  | command (w : Word)
  /-- The reset input is driven: `true` asserts it, `false` releases it (70_reset_and_hazards.md R175). -/
  | resetLine (asserted : Bool)
  /-- Two callers present commands at once, which the host may not do (R10, R15, R184). -/
  | concurrent (first second : Word)
  deriving DecidableEq, Repr

/-- The four errors of 60_exceptions.md R150. -/
inductive ErrorKind where
  /-- `E_ILLOP`: unknown opcode (R151). -/
  | illop
  /-- `E_RSVD`: reserved bit set (R152). -/
  | rsvd
  /-- `E_AGFULL`: AGPUSH while `AG.N = 15` (R126). -/
  | agfull
  /-- `E_AGEMPTY`: AGMEAN while `AG.N = 0` (R127). -/
  | agempty
  deriving DecidableEq, Repr

/-- Reasons the machine stops. There is none: "GTCB never hangs, never becomes stuck and never refuses a command
word" (R157); an error is a response, after which the next command proceeds (notes/assumptions/6.md). -/
inductive Fault where
  deriving DecidableEq, Repr

/-- Reasons a step has no meaning. -/
inductive Refusal where
  /-- An instruction without a meaning, by its mnemonic. Raised by no arm of this model. Safe. -/
  | notModelled (mnemonic : String)
  /-- Two hosts present commands at once: raised when the next host event is `HostEvent.concurrent`, because the spec
  says to refuse and never to pick an interleaving (R10, R184; notes/assumptions/5.md). Safe. -/
  | concurrentHosts
  deriving DecidableEq, Repr

/-- The state. The first six fields are the whole architectural state of the block, 64 bits (R20); the last three are
its interface (notes/assumptions/1.md, 2.md, 3.md). -/
structure State where
  /-- `CK.ACC`: the sum modulo 256 of the bytes pushed since the last clear (R21). -/
  ckAcc : Byte
  /-- `CK.CNT`: the number of bytes pushed since the last clear, saturating at 255 (R22). -/
  ckCnt : Byte
  /-- `AG.SX`: the sum of the x values pushed since the last clear (R23). -/
  agSx : Sum
  /-- `AG.SY`: the sum of the y values pushed since the last clear (R23). -/
  agSy : Sum
  /-- `AG.N`: the number of points pushed since the last clear, 0 to 15 (R23). -/
  agN : Nibble
  /-- `STATUS`: the four sticky flags; bits 7:4 of the register do not exist and read as 0 (R25). -/
  status : Nibble
  /-- The level of the reset input: `true` while it is asserted (R175). -/
  inReset : Bool
  /-- What the host will do next, the earliest first (R14, R15). -/
  input : List HostEvent
  /-- The response words given so far, the earliest first (R13). -/
  output : List Word
  deriving DecidableEq, Repr

/-- The state right after hardware reset: every register zero (R29), the reset input released, nothing presented and
nothing answered. -/
def State.reset : State where
  ckAcc := 0x00#8
  ckCnt := 0x00#8
  agSx := 0x00000#20
  agSy := 0x00000#20
  agN := 0x0#4
  status := 0x0#4
  inReset := false
  input := []
  output := []

end Sys2Proof.Machine
end

