-- ==== Sys2Proof/Machine/Flags.lean ====
section
/-! DEFINITION. The sticky flags of `STATUS` (10_state.md R25) and the status codes of responses (30_encoding.md R75). -/

namespace Sys2Proof.Machine

/-- The `status` field of an error response (R75, R150). -/
def errorCode : ErrorKind → Byte
  | .illop => 0x01#8
  | .rsvd => 0x02#8
  | .agfull => 0x03#8
  | .agempty => 0x04#8

/-- The `STATUS` bit of an error, as a mask: bit 0 `ILLOP`, bit 1 `RSVD`, bit 2 `AGFULL`, bit 3 `AGEMPTY` (R25, R150). -/
def errorFlag : ErrorKind → Nibble
  | .illop => 0b0001#4
  | .rsvd => 0b0010#4
  | .agfull => 0b0100#4
  | .agempty => 0b1000#4

/-- The error a decode failure raises (R77). -/
def decodeErrorKind : DecodeError → ErrorKind
  | .illop => .illop
  | .rsvd => .rsvd

/-- `STATUS` after an error: its bit is set, or stays set; the others keep their values (R154 (b), R25). -/
def setSticky (e : ErrorKind) (status : Nibble) : Nibble :=
  status ||| errorFlag e

/-- `STATUS` as RDST reads it: eight bits, bits 7:4 zero (R25). -/
def statusByte (status : Nibble) : Byte :=
  status.setWidth 8

end Sys2Proof.Machine
end

