-- ==== Sys2Proof/Machine/Operands.lean ====
section
/-! DEFINITION. Byte order and byte lanes (20_memory.md R45 to R47, 30_encoding.md R72, R74): the pieces operands are taken
apart into and response data are put together from. -/

namespace Sys2Proof.Machine

/-- `h[15:8]`, the high byte of a 16-bit number. -/
def hiByte (h : Half) : Byte :=
  h.extractLsb' 8 8

/-- `h[7:0]`, the low byte of a 16-bit number. -/
def loByte (h : Half) : Byte :=
  h.extractLsb' 0 8

/-- The 16-bit number of a little-endian field: low byte first on the wire (R46, R92). -/
def fromLittleEndian (first second : Byte) : Half :=
  first.setWidth 16 ||| (second.setWidth 16 <<< 8)

/-- The two wire bytes of a register address, high byte first (R45, R91). -/
def bigEndianBytes (addr : Half) : Byte × Byte :=
  (hiByte addr, loByte addr)

/-- The two wire bytes of a 16-bit data field, low byte first (R46, R93). -/
def littleEndianBytes (v : Half) : Byte × Byte :=
  (loByte v, hiByte v)

/-- Response data carrying two wire bytes: wire byte 0 in lane 0 (R72). -/
def dataOfBytes2 (b0 b1 : Byte) : Lanes :=
  0#32 ++ b1 ++ b0

/-- Response data carrying four wire bytes: wire byte 0 in lane 0 (R72). -/
def dataOfBytes4 (b0 b1 b2 b3 : Byte) : Lanes :=
  0#16 ++ b3 ++ b2 ++ b1 ++ b0

/-- Response data carrying one 16-bit number in bits 15:0 (R81, DECL). -/
def dataOfHalf (v : Half) : Lanes :=
  v.setWidth 48

/-- Response data carrying a point: `x` in bits 15:0, `y` in bits 31:16, the layout of AGPUSH's operand (R81, DECP). -/
def dataOfPoint (x y : Half) : Lanes :=
  0#16 ++ y ++ x

/-- Response data of CKGET: the checksum in bits 7:0, the count in bits 15:8 (R81). -/
def dataOfChecksum (checksum count : Byte) : Lanes :=
  0#32 ++ count ++ checksum

/-- Response data of AGMEAN: mean x in bits 15:0, mean y in bits 31:16, the count in bits 35:32 (R81). -/
def dataOfMean (meanX meanY : Half) (count : Nibble) : Lanes :=
  count.setWidth 16 ++ meanY ++ meanX

/-- Response data of RDST: `STATUS` in bits 7:0 (R81). -/
def dataOfByte (b : Byte) : Lanes :=
  b.setWidth 48

/-- The layout common to all responses: status code, the byte 0x00, data (R74). -/
def responseWord (code : Byte) (data : Lanes) : Word :=
  code ++ 0x00#8 ++ data

end Sys2Proof.Machine
end

