-- ==== Sys2Proof/Machine/Ops.lean ====
section
/-! DEFINITION. The shared operations: answering a command, raising an error (what plays the part of taking an exception),
resetting, and the arithmetic of the two accumulators. There is no return from an error (60_exceptions.md R155) and so no
operation for one. -/

namespace Sys2Proof.Machine

/-- The answer type of a meaning. -/
abbrev Result := Host.Outcome State Fault Refusal

/-- A response word leaves the block. -/
def State.emit (s : State) (r : Word) : State :=
  { s with output := s.output ++ [r] }

/-- `respond(data)`: the operation completes with status `OK` (0x00) and `data` (00_scope.md R9, 30_encoding.md R74). -/
def respond (data : Lanes) (s : State) : Result :=
  .next (s.emit (responseWord 0x00#8 data))

/-- The error response word: the error's code in bits 63:56, all else zero (R154 (c)). -/
def errorWord (e : ErrorKind) : Word :=
  responseWord (errorCode e) 0#48

/-- `raise E`: no unit register is written, the error's sticky bit is set, the error word is the response, nothing else
happens (60_exceptions.md R154). -/
def raise (e : ErrorKind) (s : State) : Result :=
  .next { s with status := setSticky e s.status, output := s.output ++ [errorWord e] }

/-- CKCLR's writes (R110). -/
def State.clearChecksum (s : State) : State :=
  { s with ckAcc := 0x00#8, ckCnt := 0x00#8 }

/-- AGCLR's writes (R125). -/
def State.clearAggregator (s : State) : State :=
  { s with agSx := 0#20, agSy := 0#20, agN := 0#4 }

/-- All six registers zero: the writes of RST (R141) and of hardware reset (R29, R175). -/
def State.clearRegisters (s : State) : State :=
  { s.clearChecksum.clearAggregator with status := 0#4 }

/-- `CK.ACC` after a push: addition modulo 256 (R111). -/
def checksumAdd (acc b : Byte) : Byte :=
  acc + b

/-- `CK.CNT` after a push: one more, saturating at 255 (R111). -/
def countUp (cnt : Byte) : Byte :=
  BitVec.ofNat 8 (min (cnt.toNat + 1) Config.ckCntMax)

/-- The checksum byte of a sum: `(NOT_8(acc) + 1) mod 256` (R112, 90_conflicts.md C3). -/
def checksumOf (acc : Byte) : Byte :=
  (acc ^^^ 0xFF#8) + 1#8

/-- A coordinate sum after a push. In every state with `Safety.AggBound` the sum is exact (R126); in the other states,
which no run reaches, the 20-bit register wraps (notes/assumptions/4.md). -/
def sumAdd (sum : Sum) (v : Half) : Sum :=
  sum + v.setWidth 20

/-- One axis of the mean: the floor of the quotient (R127). In every state with `Safety.AggBound` it fits 16 bits; in
the other states, which no run reaches, the low 16 bits are kept (notes/assumptions/4.md). -/
def meanOf (sum : Sum) (n : Nibble) : Half :=
  (sum / n.setWidth 20).setWidth 16

end Sys2Proof.Machine
end

