-- ==== Sys2Proof/Machine/Aggregator.lean ====
section
/-! DEFINITION. The aggregator unit: AGCLR, AGPUSH, AGMEAN (42_aggregator.md). -/

namespace Sys2Proof.Machine

/-- AGCLR (R125): the three accumulators zero; `STATUS` is not touched. -/
def execAgclr (s : State) : Result :=
  respond 0#48 s.clearAggregator

/-- AGPUSH (R126): `E_AGFULL` when 15 points are held, else one point more. -/
def execAgpush (x y : Half) (s : State) : Result :=
  if s.agN.toNat = Config.agMaxN then raise .agfull s
  else respond 0#48 { s with agSx := sumAdd s.agSx x, agSy := sumAdd s.agSy y, agN := s.agN + 1#4 }

/-- AGMEAN (R127): `E_AGEMPTY` when no point is held, else the mean of each axis and the count; it changes no
accumulator. -/
def execAgmean (s : State) : Result :=
  if s.agN.toNat = 0 then raise .agempty s
  else respond (dataOfMean (meanOf s.agSx s.agN) (meanOf s.agSy s.agN) s.agN) s

end Sys2Proof.Machine
end

