-- ==== Sys2Proof/Machine/Checksum.lean ====
section
/-! DEFINITION. The checksum unit: CKCLR, CKPUSH, CKGET (41_checksum.md). It raises no error. -/

namespace Sys2Proof.Machine

/-- CKCLR (R110). -/
def execCkclr (s : State) : Result :=
  respond 0#48 s.clearChecksum

/-- CKPUSH (R111): one byte more in the sum and in the count; no limit on the number of pushes. -/
def execCkpush (b : Byte) (s : State) : Result :=
  respond 0#48 { s with ckAcc := checksumAdd s.ckAcc b, ckCnt := countUp s.ckCnt }

/-- CKGET (R112): the checksum byte and the count; it changes no register. -/
def execCkget (s : State) : Result :=
  respond (dataOfChecksum (checksumOf s.ckAcc) s.ckCnt) s

end Sys2Proof.Machine
end

