-- ==== Sys2Proof/Machine/Codec.lean ====
section
/-! DEFINITION. The codec unit: ENCA, DECL, ENCL, REV4, DECP (40_codec.md). It reads and writes no register (R30, R90). -/

namespace Sys2Proof.Machine

/-- ENCA (R91): the address's high byte in lane 0, its low byte in lane 1. -/
def execEnca (addr : Half) (s : State) : Result :=
  respond (dataOfBytes2 (bigEndianBytes addr).1 (bigEndianBytes addr).2) s

/-- DECL (R92): `w0` is the low byte, `w1` the high byte. -/
def execDecl (w0 w1 : Byte) (s : State) : Result :=
  respond (dataOfHalf (fromLittleEndian w0 w1)) s

/-- ENCL (R93): the value's low byte in lane 0, its high byte in lane 1. -/
def execEncl (v : Half) (s : State) : Result :=
  respond (dataOfBytes2 (littleEndianBytes v).1 (littleEndianBytes v).2) s

/-- REV4 (R94): the four bytes in reverse order. -/
def execRev4 (w0 w1 w2 w3 : Byte) (s : State) : Result :=
  respond (dataOfBytes4 w3 w2 w1 w0) s

/-- DECP (R95): x from the first two bytes, y from the next two; the last two are ignored. -/
def execDecp (w0 w1 w2 w3 _w4 _w5 : Byte) (s : State) : Result :=
  respond (dataOfPoint (fromLittleEndian w0 w1) (fromLittleEndian w2 w3)) s

end Sys2Proof.Machine
end

