-- ==== Sys2Proof/Machine/System.lean ====
section
/-! DEFINITION. The system operations NOP, RST, RDST (43_system.md). -/

namespace Sys2Proof.Machine

/-- NOP (R140): no register changes, `OK` with zero data. -/
def execNop (s : State) : Result :=
  respond 0#48 s

/-- RST (R141): every register zero, flags included, then `OK`. -/
def execRst (s : State) : Result :=
  respond 0#48 s.clearRegisters

/-- RDST (R142): the flags, which reading does not clear. -/
def execRdst (s : State) : Result :=
  respond (dataOfByte (statusByte s.status)) s

end Sys2Proof.Machine
end

