-- ==== Sys2Proof/Machine/Dispatch.lean ====
section
/-! DEFINITION. One arm per instruction. -/

namespace Sys2Proof.Machine

def exec (i : Instr) (s : State) : Host.Outcome State Fault Refusal :=
  match i with
  | .nop => Sys2Proof.Machine.execNop s
  | .rst => Sys2Proof.Machine.execRst s
  | .rdst => Sys2Proof.Machine.execRdst s
  | .enca addr => Sys2Proof.Machine.execEnca addr s
  | .decl w0 w1 => Sys2Proof.Machine.execDecl w0 w1 s
  | .encl v => Sys2Proof.Machine.execEncl v s
  | .rev4 w0 w1 w2 w3 => Sys2Proof.Machine.execRev4 w0 w1 w2 w3 s
  | .decp w0 w1 w2 w3 w4 w5 => Sys2Proof.Machine.execDecp w0 w1 w2 w3 w4 w5 s
  | .ckclr => Sys2Proof.Machine.execCkclr s
  | .ckpush b => Sys2Proof.Machine.execCkpush b s
  | .ckget => Sys2Proof.Machine.execCkget s
  | .agclr => Sys2Proof.Machine.execAgclr s
  | .agpush x y => Sys2Proof.Machine.execAgpush x y s
  | .agmean => Sys2Proof.Machine.execAgmean s

end Sys2Proof.Machine
end

