-- ==== Sys2Proof/Machine/Port.lean ====
section
/-! DEFINITION. The command port and the reset input: what the block does with the host's next event (00_scope.md R11, R15,
70_reset_and_hazards.md R175, R184). -/

namespace Sys2Proof.Machine

/-- The host's next event, taken from the front of what it will do, and the state without it. -/
def takeEvent (s : State) : Option (HostEvent × State) :=
  match s.input with
  | [] => none
  | e :: rest => some (e, { s with input := rest })

/-- Nothing presented: "it never acts except in answer to a command or to hardware reset" (60_exceptions.md R158;
notes/assumptions/1.md). -/
def idle (s : State) : Result :=
  .next s

/-- R77: decode the word, then execute the operation or raise the decoder's error. -/
def execWord (w : Word) (s : State) : Result :=
  match decode w with
  | .ok i => exec i s
  | .error e => raise (decodeErrorKind e) s

/-- A command is presented: executed and answered, or, while reset is asserted, lost without response or effect
(R175; 93_implementation_defined.md U2). -/
def serveCommand (w : Word) (s : State) : Result :=
  if s.inReset then .next s else execWord w s

/-- The reset input is driven (R175). Asserting it resets the registers and closes the port; releasing it leaves the
reset state and opens the port; neither gives a response. A release of a line that is not asserted is no event
(notes/assumptions/3.md). -/
def driveReset (asserted : Bool) (s : State) : Result :=
  if asserted || s.inReset then .next { s.clearRegisters with inReset := asserted } else .next s

/-- What the block does with one host event. Two commands at once have no meaning and are refused (R184). -/
def serve (e : HostEvent) (s : State) : Result :=
  match e with
  | .command w => serveCommand w s
  | .resetLine asserted => driveReset asserted s
  | .concurrent _ _ => .refused .concurrentHosts

end Sys2Proof.Machine
end

