-- ==== Sys2Proof/Machine/Step.lean ====
section
/-! DEFINITION. One step of the block (00_scope.md R11), and the state in which a given word is what the next step runs. -/

namespace Sys2Proof.Machine

/-- One step: the host's next event is served; with none the block is idle. -/
def step (s : State) : Host.Outcome State Fault Refusal :=
  match takeEvent s with
  | none => idle s
  | some (e, s') => serve e s'

/-- `s` with this word as the next command the host presents and the reset input released, so that the next step runs
it. The block fetches nothing (10_state.md R24): the host's next command is where an instruction comes from
(notes/assumptions/1.md). -/
def State.withFetchWord (s : State) (nbits w : Nat) : State :=
  { s with inReset := false, input := .command (tableWord nbits w) :: s.input }

end Sys2Proof.Machine
end

