-- ==== Sys2Proof/Machine/Pseudo.lean ====
section
/-! DEFINITION. The pseudo-instructions of 30_encoding.md R83, as the command sequences they abbreviate, and a sequence of
instructions as the host presents it (43_system.md R143). -/

namespace Sys2Proof.Machine

/-- The host presents these instructions, one command word each, in this order (R143). -/
def present (is : List Instr) : List HostEvent :=
  is.map fun i => .command (encode i)

/-- `CKSUM b_0, ..., b_(k-1)`, any number of bytes. -/
def cksum (bs : List Byte) : List Instr :=
  .ckclr :: (bs.map .ckpush ++ [.ckget])

/-- `CKVFY b_0, ..., b_184`: the same sequence over the payload with its checksum byte. -/
def ckvfy (bs : List Byte) : List Instr :=
  cksum bs

/-- What the host checks after `CKVFY`: the blob is consistent exactly when the checksum byte of the response is 0x00
and its count is 185. -/
def blobConsistent (response : Word) : Bool :=
  response.extractLsb' 0 8 == 0x00#8 && response.extractLsb' 8 8 == 185#8

/-- `AVG (x_0,y_0), ..., (x_(n-1),y_(n-1))`. -/
def avg (points : List (Half × Half)) : List Instr :=
  .agclr :: (points.map (fun p => .agpush p.1 p.2) ++ [.agmean])

/-- The second command of `POINT`: the AGPUSH whose operand bits 31:0 the host copies from data bits 31:0 of the DECP
response. -/
def pointPush (response : Word) : Instr :=
  .agpush (response.extractLsb' 0 16) (response.extractLsb' 16 16)

end Sys2Proof.Machine
end

