-- ==== Sys2Proof/Safety.lean ====
section
/-! DEFINITION. The terms claims are stated in: the invariant of the reachable states, agreement of states, and the fields
of a response word. -/

namespace Sys2Proof.Safety

open Sys2Proof.Machine

/-- The invariant of every reachable state (10_state.md R23): each coordinate sum is at most 65535 times the number of
points; so with no point both sums are zero. -/
abbrev AggBound (s : State) : Prop :=
  s.agSx.toNat ≤ 65535 * s.agN.toNat ∧ s.agSy.toNat ≤ 65535 * s.agN.toNat

/-- All six registers hold zero (10_state.md R29). -/
abbrev RegistersZero (s : State) : Prop :=
  s.ckAcc = 0 ∧ s.ckCnt = 0 ∧ s.agSx = 0 ∧ s.agSy = 0 ∧ s.agN = 0 ∧ s.status = 0

/-- Two states hold the same values in the registers of the checksum unit. -/
abbrev SameChecksum (s t : State) : Prop :=
  s.ckAcc = t.ckAcc ∧ s.ckCnt = t.ckCnt

/-- Two states hold the same values in the registers of the aggregator unit. -/
abbrev SameAggregator (s t : State) : Prop :=
  s.agSx = t.agSx ∧ s.agSy = t.agSy ∧ s.agN = t.agN

/-- Two states hold the same values in all six registers. -/
abbrev SameRegisters (s t : State) : Prop :=
  SameChecksum s t ∧ SameAggregator s t ∧ s.status = t.status

/-- The word `w` is the command the block takes next: the reset input is released and the host presents `w`, then
`rest`. -/
abbrev Presented (s : State) (w : Word) (rest : List HostEvent) : Prop :=
  s.inReset = false ∧ s.input = .command w :: rest

/-- The `status` field of a response word, bits 63:56 (30_encoding.md R74). -/
def responseStatus (r : Word) : Nat :=
  r.toNat / 2 ^ 56

/-- Byte lane `k` of a response word's data (30_encoding.md R72, R74). -/
def responseLane (r : Word) (k : Nat) : Byte :=
  r.extractLsb' (8 * k) 8

/-- The word is a CKPUSH: bits 63:8 are those of its row, 0x21 and zeros (41_checksum.md R111). -/
def isCkpush (c : Word) : Bool :=
  c.toNat / 2 ^ 8 == 0x21 * 2 ^ 48

/-- The word is an AGPUSH: bits 63:32 are those of its row, 0x31 and zeros (42_aggregator.md R126). -/
def isAgpush (c : Word) : Bool :=
  c.toNat / 2 ^ 32 == 0x31 * 2 ^ 24

/-- The byte a command word pushes into the checksum unit; 0 for every word but a CKPUSH. -/
def pushedByte (c : Word) : Nat :=
  if isCkpush c then c.toNat % 2 ^ 8 else 0

/-- The x value a command word pushes into the aggregator; 0 for every word but an AGPUSH. -/
def pushedX (c : Word) : Nat :=
  if isAgpush c then c.toNat % 2 ^ 16 else 0

/-- The y value a command word pushes into the aggregator; 0 for every word but an AGPUSH. -/
def pushedY (c : Word) : Nat :=
  if isAgpush c then c.toNat / 2 ^ 16 % 2 ^ 16 else 0

/-- The operand fields of an instruction as numbers, in the order R82 writes them. -/
def operandsOf : Instr → List Nat
  | .nop => []
  | .rst => []
  | .rdst => []
  | .enca addr => [addr.toNat]
  | .decl w0 w1 => [w0.toNat, w1.toNat]
  | .encl v => [v.toNat]
  | .rev4 w0 w1 w2 w3 => [w0.toNat, w1.toNat, w2.toNat, w3.toNat]
  | .decp w0 w1 w2 w3 w4 w5 => [w0.toNat, w1.toNat, w2.toNat, w3.toNat, w4.toNat, w5.toNat]
  | .ckclr => []
  | .ckpush b => [b.toNat]
  | .ckget => []
  | .agclr => []
  | .agpush x y => [x.toNat, y.toNat]
  | .agmean => []

end Sys2Proof.Safety
end

