-- ==== Sys2Proof/Certificates/Slice0/Obligations.lean ====
section
/-! DEFINITION. The statements for the provers. Each docstring names the rule of spec/ it formalises. Numbers in them are
written from the rules, not with the model's own helper functions. -/

open Sys2Proof Sys2Proof.Machine Sys2Proof.Safety

/-- The opcode map of 30_encoding.md R76, written out again for the statements: operation, opcode, `match`, `mask`,
and how many low operand bits its format uses (R71). -/
def Sys2Proof.Claims.rows : List (Op × Nat × Word × Word × Nat) :=
  [ (.nop, 0x00, 0x0000000000000000#64, 0xFFFFFFFFFFFFFFFF#64, 0),
    (.rst, 0x01, 0x0100000000000000#64, 0xFFFFFFFFFFFFFFFF#64, 0),
    (.rdst, 0x02, 0x0200000000000000#64, 0xFFFFFFFFFFFFFFFF#64, 0),
    (.enca, 0x10, 0x1000000000000000#64, 0xFFFFFFFFFFFF0000#64, 16),
    (.decl, 0x11, 0x1100000000000000#64, 0xFFFFFFFFFFFF0000#64, 16),
    (.encl, 0x12, 0x1200000000000000#64, 0xFFFFFFFFFFFF0000#64, 16),
    (.rev4, 0x13, 0x1300000000000000#64, 0xFFFFFFFF00000000#64, 32),
    (.decp, 0x14, 0x1400000000000000#64, 0xFFFF000000000000#64, 48),
    (.ckclr, 0x20, 0x2000000000000000#64, 0xFFFFFFFFFFFFFFFF#64, 0),
    (.ckpush, 0x21, 0x2100000000000000#64, 0xFFFFFFFFFFFFFF00#64, 8),
    (.ckget, 0x22, 0x2200000000000000#64, 0xFFFFFFFFFFFFFFFF#64, 0),
    (.agclr, 0x30, 0x3000000000000000#64, 0xFFFFFFFFFFFFFFFF#64, 0),
    (.agpush, 0x31, 0x3100000000000000#64, 0xFFFFFFFF00000000#64, 32),
    (.agmean, 0x32, 0x3200000000000000#64, 0xFFFFFFFFFFFFFFFF#64, 0) ]

/-- The fourteen legal opcodes (60_exceptions.md R151). -/
def Sys2Proof.Claims.opcodes : List Nat :=
  [0x00, 0x01, 0x02, 0x10, 0x11, 0x12, 0x13, 0x14, 0x20, 0x21, 0x22, 0x30, 0x31, 0x32]

/-- A reserved bit of a word with an opcode of the map is 1: bits 55:48 are not all zero, or an operand bit above those
the format uses is 1 (R152). -/
def Sys2Proof.Claims.reservedBitSet (c : Word) : Prop :=
  ∃ row ∈ Sys2Proof.Claims.rows, c.toNat / 2 ^ 56 = row.2.1 ∧
    (c.toNat / 2 ^ 48 % 256 ≠ 0 ∨ c.toNat % 2 ^ 48 / 2 ^ row.2.2.2.2 ≠ 0)

open Sys2Proof.Claims

/-! ## Reset -/

/-- R29: hardware reset and the RST operation leave every register zero. R175: so does a release of the reset input; that
it is an event of its own is the model's form (notes/assumptions/3.md). R110, R125: so does CKCLR then AGCLR where STATUS
is zero, the sentence R29 itself marks as derived from those two rules. -/
def Obligations.ResetLeavesEveryRegisterZero : Prop :=
  RegistersZero State.reset ∧
  (∀ s : State, ∃ t, exec .rst s = .next t ∧ RegistersZero t) ∧
  (∀ (s : State) (rest : List HostEvent), s.inReset = true → s.input = .resetLine false :: rest →
    ∃ t, step s = .next t ∧ RegistersZero t) ∧
  (∀ s : State, s.status = 0 → ∃ t u, exec .ckclr s = .next t ∧ exec .agclr t = .next u ∧ RegistersZero u)

/-- R175: asserting the reset input gives no response; while it is asserted a presented command is lost without response
or effect; when it is released the state is the reset state and the port is open, again without a response. That the
registers are zero already while the input is asserted is the model's choice (notes/assumptions/3.md) and is not
stated here. -/
def Obligations.HardwareResetLosesCommandsAndZeroes : Prop :=
  (∀ (s : State) (rest : List HostEvent), s.input = .resetLine true :: rest →
    ∃ t, step s = .next t ∧ t.inReset = true ∧ t.output = s.output ∧ t.input = rest) ∧
  (∀ (s : State) (w : Word) (rest : List HostEvent), s.inReset = true → s.input = .command w :: rest →
    step s = .next { s with input := rest }) ∧
  (∀ (s : State) (rest : List HostEvent), s.inReset = true → s.input = .resetLine false :: rest →
    step s = .next { State.reset with input := rest, output := s.output })

/-! ## The step and the command port -/

/-- R77, R11: when the presented word decodes to an instruction, the step takes the word and runs that instruction. -/
def Obligations.StepRunsTheDecodedInstruction : Prop :=
  ∀ (s : State) (w : Word) (rest : List HostEvent) (i : Instr), Presented s w rest → decode w = .ok i →
    step s = exec i { s with input := rest }

/-- R11: a step consumes exactly one command word and produces exactly one response word, for every word and every
state; the registers and the response after it depend on the registers and the word and on nothing else. -/
def Obligations.EveryCommandAnsweredOnceFromStateAndWord : Prop :=
  ∀ (s₁ s₂ : State) (w : Word) (rest₁ rest₂ : List HostEvent),
    Presented s₁ w rest₁ → Presented s₂ w rest₂ → SameRegisters s₁ s₂ →
    ∃ (t₁ t₂ : State) (r : Word), step s₁ = .next t₁ ∧ step s₂ = .next t₂ ∧
      t₁.input = rest₁ ∧ t₁.output = s₁.output ++ [r] ∧ t₁.inReset = false ∧
      t₂.input = rest₂ ∧ t₂.output = s₂.output ++ [r] ∧ t₂.inReset = false ∧ SameRegisters t₁ t₂

/-- R158, R14: with nothing presented a step changes nothing. The idle step is the model's form of "it never acts except
in answer to a command or to hardware reset" (notes/assumptions/1.md). -/
def Obligations.NothingPresentedNothingChanges : Prop :=
  ∀ s : State, s.input = [] → step s = .next s

/-- R10, R184: two hosts presenting at once are refused, whatever the state. The form of the refusal is the model's
(notes/assumptions/5.md). -/
def Obligations.TwoHostsAtOnceAreRefused : Prop :=
  ∀ (s : State) (a b : Word) (rest : List HostEvent), s.input = .concurrent a b :: rest →
    step s = .refused .concurrentHosts

/-! ## Encoding -/

/-- R70, R71, R76, R77: the word of every instruction, with every operand at every value, decodes to it. -/
def Obligations.DecodeOfEncodeIsTheInstruction : Prop :=
  ∀ i : Instr, decode (encode i) = .ok i

/-- R77, R79: a word that decodes is the word of the instruction it decodes to; no bit of it is ignored. -/
def Obligations.EncodeOfDecodeIsTheWord : Prop :=
  ∀ (c : Word) (i : Instr), decode c = .ok i → encode i = c

/-- R76: a word is a legal instance of an operation exactly when `c AND mask = match` for its row. -/
def Obligations.LegalWordsAreThoseOfTheOpcodeMap : Prop :=
  ∀ row ∈ rows, ∀ c : Word, c &&& row.2.2.2.1 = row.2.2.1 ↔ ∃ i, decode c = .ok i ∧ i.op = row.1

/-- R82: a well-formed line of assembly assembles to the word of the instruction with the line's mnemonic and the line's
numbers as its operands, and a literal line to the word of that number. That a line with a wrong number of operands, a
number too large for its field (R73) or a literal of more than 64 bits assembles to none is the model's reading
(notes/assumptions/10.md), and R82 does not say it. -/
def Obligations.AssemblyLinesGiveTheirInstruction : Prop :=
  (∀ (m : Op) (xs : List Nat),
    ((AsmLine.op m xs).wellFormed = true →
      ∃ i : Instr, assemble (.op m xs) = some (encode i) ∧ i.op = m ∧ operandsOf i = xs) ∧
    ((AsmLine.op m xs).wellFormed = false → assemble (.op m xs) = none)) ∧
  ∀ n : Nat,
    (n < 2 ^ 64 → ∃ c : Word, assemble (.word n) = some c ∧ c.toNat = n) ∧
    (2 ^ 64 ≤ n → assemble (.word n) = none)

/-- Words written out from R76 and the worked examples decode to what they stand for. -/
def Obligations.WrittenWordsDecodeAsTheSpecSays : Prop :=
  decode 0x0000000000000000#64 = .ok .nop ∧
  decode 0x1000000000008150#64 = .ok (.enca 0x8150#16) ∧
  decode 0x1400000002780134#64 = .ok (.decp 0x34#8 0x01#8 0x78#8 0x02#8 0x00#8 0x00#8) ∧
  decode 0x2100000000000010#64 = .ok (.ckpush 0x10#8) ∧
  decode 0x3100000000680066#64 = .ok (.agpush 102#16 104#16) ∧
  decode 0x0300000000000000#64 = .error .illop ∧
  decode 0x2100000000000134#64 = .error .rsvd

/-! ## Errors and STATUS -/

/-- R151: a word with an opcode outside the map sets `STATUS[0]`, is answered 0x0100000000000000 and changes no other
register, whatever its other bits. -/
def Obligations.UnknownOpcodeAnswersIllop : Prop :=
  ∀ (s : State) (c : Word) (rest : List HostEvent), Presented s c rest → c.toNat / 2 ^ 56 ∉ opcodes →
    step s = .next { s with
      input := rest, status := s.status ||| 0b0001#4, output := s.output ++ [0x0100000000000000#64] }

/-- R152: a word with a legal opcode fails its row's mask exactly when bits 55:48 or a reserved operand bit are not all
zero; it then sets `STATUS[1]`, is answered 0x0200000000000000 and the operation is not performed. -/
def Obligations.ReservedBitAnswersRsvd : Prop :=
  ∀ row ∈ rows, ∀ c : Word, c.toNat / 2 ^ 56 = row.2.1 →
    (c &&& row.2.2.2.1 ≠ row.2.2.1 ↔
      (c.toNat / 2 ^ 48 % 256 ≠ 0 ∨ c.toNat % 2 ^ 48 / 2 ^ row.2.2.2.2 ≠ 0)) ∧
    ∀ (s : State) (rest : List HostEvent), Presented s c rest → c &&& row.2.2.2.1 ≠ row.2.2.1 →
      step s = .next { s with
        input := rest, status := s.status ||| 0b0010#4, output := s.output ++ [0x0200000000000000#64] }

/-- R156: one error per command, in the order E_ILLOP, E_RSVD, own error: an AGPUSH word with a reserved bit set raises
E_RSVD only, although 15 points are held, and an AGMEAN word with one raises E_RSVD only, although none is. -/
def Obligations.DecodeErrorsComeBeforeTheOwnError : Prop :=
  ∀ (s : State) (c : Word) (rest : List HostEvent), Presented s c rest → reservedBitSet c →
    (c.toNat / 2 ^ 56 = 0x31 ∧ s.agN = 15#4 ∨ c.toNat / 2 ^ 56 = 0x32 ∧ s.agN = 0#4) →
    ∃ t, step s = .next t ∧ t.output = s.output ++ [0x0200000000000000#64] ∧ t.status = s.status ||| 0b0010#4

/-- R154: an error response carries `code << 56`, writes none of the unit registers, sets the one sticky bit that belongs
to the code, and does nothing else. -/
def Obligations.ErrorsWriteOnlyTheirStickyBit : Prop :=
  ∀ (s : State) (c : Word) (rest : List HostEvent), Presented s c rest →
    ∃ (t : State) (r : Word), step s = .next t ∧ t.output = s.output ++ [r] ∧
      (responseStatus r ≠ 0 → ∃ k < 4, r.toNat = (k + 1) * 2 ^ 56 ∧
        t = { s with input := rest, output := s.output ++ [r], status := s.status ||| BitVec.ofNat 4 (2 ^ k) })

/-- R74, R75: the status of every response is 0 to 4, its bits 55:48 are zero, and its data is zero on any error. -/
def Obligations.ResponseWordsHaveTheCommonLayout : Prop :=
  ∀ (s : State) (c : Word) (rest : List HostEvent), Presented s c rest →
    ∃ (t : State) (r : Word), step s = .next t ∧ t.output = s.output ++ [r] ∧
      responseStatus r ≤ 4 ∧ r.toNat / 2 ^ 48 % 256 = 0 ∧ (responseStatus r ≠ 0 → r.toNat % 2 ^ 48 = 0)

/-- R25: each flag after a command is 1 exactly when the command was not the RST word and the flag was 1 already or the
command is the flag's own error; no other command sets or clears a flag. -/
def Obligations.FlagsAreStickyAndSetOnlyByTheirError : Prop :=
  ∀ (s : State) (c : Word) (rest : List HostEvent), Presented s c rest →
    ∃ t, step s = .next t ∧
      (t.status.getLsbD 0 = true ↔ c ≠ 0x0100000000000000#64 ∧
        (s.status.getLsbD 0 = true ∨ c.toNat / 2 ^ 56 ∉ opcodes)) ∧
      (t.status.getLsbD 1 = true ↔ c ≠ 0x0100000000000000#64 ∧
        (s.status.getLsbD 1 = true ∨ reservedBitSet c)) ∧
      (t.status.getLsbD 2 = true ↔ c ≠ 0x0100000000000000#64 ∧
        (s.status.getLsbD 2 = true ∨ (∃ x y, decode c = .ok (.agpush x y)) ∧ s.agN = 15#4)) ∧
      (t.status.getLsbD 3 = true ↔ c ≠ 0x0100000000000000#64 ∧
        (s.status.getLsbD 3 = true ∨ decode c = .ok .agmean ∧ s.agN = 0#4))

/-- R25: "A flag being set changes the behaviour of no operation": with any other value of STATUS, every word but RDST's
gets the same response and leaves the same unit registers. -/
def Obligations.FlagsChangeNoBehaviour : Prop :=
  ∀ (s : State) (f : Nibble) (c : Word) (rest : List HostEvent), Presented s c rest → c ≠ 0x0200000000000000#64 →
    ∃ t t' : State, step s = .next t ∧ step { s with status := f } = .next t' ∧
      t.output = t'.output ∧ SameChecksum t t' ∧ SameAggregator t t'

/-- R155: if after any sequence of command words without the RST word STATUS reads 0, then STATUS was 0 at the start and
every response of the run was OK. -/
def Obligations.ZeroStatusAtTheEndMeansNoError : Prop :=
  ∀ (s : State) (ws : List Word) (rest : List HostEvent), s.inReset = false →
    s.input = ws.map .command ++ rest → 0x0100000000000000#64 ∉ ws →
    ∃ (t : State) (rs : List Word), Host.Core.run Sys2Proof.core ws.length s = .next t ∧
      t.output = s.output ++ rs ∧ rs.length = ws.length ∧
      (t.status = 0#4 → s.status = 0#4 ∧ ∀ r ∈ rs, responseStatus r = 0)

/-! ## Which registers an operation reads and writes -/

/-- R31: what each instruction leaves unchanged: the checksum registers but for RST, CKCLR, CKPUSH; the aggregator
registers but for RST, AGCLR, AGPUSH; STATUS but for RST, AGPUSH, AGMEAN; the host's side but for one more response. -/
def Obligations.EachInstructionWritesOnlyItsRegisters : Prop :=
  ∀ (i : Instr) (s : State), ∃ (t : State) (r : Word), exec i s = .next t ∧
    (i.op ≠ .rst → i.op ≠ .ckclr → i.op ≠ .ckpush → SameChecksum s t) ∧
    (i.op ≠ .rst → i.op ≠ .agclr → i.op ≠ .agpush → SameAggregator s t) ∧
    (i.op ≠ .rst → i.op ≠ .agpush → i.op ≠ .agmean → t.status = s.status) ∧
    t.inReset = s.inReset ∧ t.input = s.input ∧ t.output = s.output ++ [r]

/-- R30, R90: a codec operation reads and writes no register; its response is a function of the operation and its
operands alone, and its status is OK. -/
def Obligations.CodecIsStatelessAndTotal : Prop :=
  ∀ i : Instr, i.op ∈ [Op.enca, Op.decl, Op.encl, Op.rev4, Op.decp] →
    ∃ r : Word, responseStatus r = 0 ∧ ∀ s : State, exec i s = .next { s with output := s.output ++ [r] }

/-- R20: the checksum operations neither read nor write a register of another unit. -/
def Obligations.ChecksumUnitIsIndependent : Prop :=
  ∀ (i : Instr) (s₁ s₂ : State), i.op ∈ [Op.ckclr, Op.ckpush, Op.ckget] → SameChecksum s₁ s₂ →
    ∃ (t₁ t₂ : State) (r : Word), exec i s₁ = .next t₁ ∧ exec i s₂ = .next t₂ ∧ SameChecksum t₁ t₂ ∧
      t₁ = { s₁ with ckAcc := t₁.ckAcc, ckCnt := t₁.ckCnt, output := s₁.output ++ [r] } ∧
      t₂ = { s₂ with ckAcc := t₁.ckAcc, ckCnt := t₁.ckCnt, output := s₂.output ++ [r] }

/-- R20: the aggregator operations neither read nor write a register of another unit, but for the sticky bit an error
sets. -/
def Obligations.AggregatorUnitIsIndependent : Prop :=
  ∀ (i : Instr) (s₁ s₂ : State), i.op ∈ [Op.agclr, Op.agpush, Op.agmean] → SameAggregator s₁ s₂ →
    ∃ (t₁ t₂ : State) (r : Word) (f : Nibble), exec i s₁ = .next t₁ ∧ exec i s₂ = .next t₂ ∧ SameAggregator t₁ t₂ ∧
      (f = 0b0000#4 ∨ f = 0b0100#4 ∨ f = 0b1000#4) ∧
      t₁ = { s₁ with
        agSx := t₁.agSx, agSy := t₁.agSy, agN := t₁.agN, status := s₁.status ||| f, output := s₁.output ++ [r] } ∧
      t₂ = { s₂ with
        agSx := t₁.agSx, agSy := t₁.agSy, agN := t₁.agN, status := s₂.status ||| f, output := s₂.output ++ [r] }

/-! ## The aggregator's invariant -/

/-- R23, R29: the invariant of the coordinate sums holds after reset. -/
def Obligations.ResetMeetsTheSumBound : Prop :=
  AggBound State.reset

/-- R23: every step keeps the invariant of the coordinate sums, from every state that meets it, whatever the host does. -/
def Obligations.EveryStepKeepsTheSumBound : Prop :=
  ∀ s t : State, AggBound s → step s = .next t → AggBound t

/-! ## The operations: encoding, result, everything unchanged -/

/-- R140. -/
def Obligations.NopAnswersAndChangesNothing : Prop :=
  decode 0x0000000000000000#64 = .ok .nop ∧
  ∀ s : State, exec .nop s = .next { s with output := s.output ++ [0x0000000000000000#64] }

/-- R141. -/
def Obligations.RstZeroesEveryRegister : Prop :=
  decode 0x0100000000000000#64 = .ok .rst ∧
  ∀ s : State, exec .rst s = .next { s with
    ckAcc := 0, ckCnt := 0, agSx := 0, agSy := 0, agN := 0, status := 0,
    output := s.output ++ [0x0000000000000000#64] }

/-- R142. -/
def Obligations.RdstReadsTheFlagsWithoutClearing : Prop :=
  decode 0x0200000000000000#64 = .ok .rdst ∧
  ∀ s : State, exec .rdst s = .next { s with output := s.output ++ [BitVec.ofNat 64 s.status.toNat] }

/-- R91: `hi = addr >> 8` in lane 0, `lo = addr AND 0xFF` in lane 1. -/
def Obligations.EncaSendsTheHighByteFirst : Prop :=
  ∀ addr : Half,
    decode (BitVec.ofNat 64 (0x10 * 2 ^ 56 + addr.toNat)) = .ok (.enca addr) ∧
    ∀ s : State, exec (.enca addr) s = .next { s with
      output := s.output ++ [BitVec.ofNat 64 (addr.toNat / 256 + 256 * (addr.toNat % 256))] }

/-- R92: `w0 OR (w1 << 8)`. -/
def Obligations.DeclTakesTheLowByteFirst : Prop :=
  ∀ w0 w1 : Byte,
    decode (BitVec.ofNat 64 (0x11 * 2 ^ 56 + w0.toNat + 2 ^ 8 * w1.toNat)) = .ok (.decl w0 w1) ∧
    ∀ s : State, exec (.decl w0 w1) s = .next { s with
      output := s.output ++ [BitVec.ofNat 64 (w0.toNat + 256 * w1.toNat)] }

/-- R93: `lo = v AND 0xFF` in lane 0, `hi = v >> 8` in lane 1. That decoding the two lanes gives `v` back is the sentence
R93 marks as derived from R92. -/
def Obligations.EnclSendsTheLowByteFirst : Prop :=
  ∀ v : Half,
    decode (BitVec.ofNat 64 (0x12 * 2 ^ 56 + v.toNat)) = .ok (.encl v) ∧
    ∀ s : State, ∃ r : Word, exec (.encl v) s = .next { s with output := s.output ++ [r] } ∧
      r.toNat = v.toNat % 256 + 256 * (v.toNat / 256) ∧
      exec (.decl (responseLane r 0) (responseLane r 1)) s = .next { s with
        output := s.output ++ [BitVec.ofNat 64 v.toNat] }

/-- R94: lane 0 = w3, lane 1 = w2, lane 2 = w1, lane 3 = w0. -/
def Obligations.Rev4ReversesTheBytes : Prop :=
  ∀ w0 w1 w2 w3 : Byte,
    decode (BitVec.ofNat 64
      (0x13 * 2 ^ 56 + w0.toNat + 2 ^ 8 * w1.toNat + 2 ^ 16 * w2.toNat + 2 ^ 24 * w3.toNat)) =
        .ok (.rev4 w0 w1 w2 w3) ∧
    ∀ s : State, exec (.rev4 w0 w1 w2 w3) s = .next { s with
      output := s.output ++
        [BitVec.ofNat 64 (w3.toNat + 2 ^ 8 * w2.toNat + 2 ^ 16 * w1.toNat + 2 ^ 24 * w0.toNat)] }

/-- R95: `x = w0 OR (w1 << 8)`, `y = w2 OR (w3 << 8)`; `w4` and `w5` do not influence the response. -/
def Obligations.DecpDecodesThePointIgnoringTheTail : Prop :=
  ∀ w0 w1 w2 w3 w4 w5 : Byte,
    decode (BitVec.ofNat 64
      (0x14 * 2 ^ 56 + w0.toNat + 2 ^ 8 * w1.toNat + 2 ^ 16 * w2.toNat + 2 ^ 24 * w3.toNat + 2 ^ 32 * w4.toNat +
        2 ^ 40 * w5.toNat)) = .ok (.decp w0 w1 w2 w3 w4 w5) ∧
    ∀ s : State, exec (.decp w0 w1 w2 w3 w4 w5) s = .next { s with
      output := s.output ++
        [BitVec.ofNat 64 ((w0.toNat + 256 * w1.toNat) + 2 ^ 16 * (w2.toNat + 256 * w3.toNat))] }

/-- R110. -/
def Obligations.CkclrStartsANewChecksum : Prop :=
  decode 0x2000000000000000#64 = .ok .ckclr ∧
  ∀ s : State, exec .ckclr s = .next { s with
    ckAcc := 0, ckCnt := 0, output := s.output ++ [0x0000000000000000#64] }

/-- R111: the sum is taken modulo 256 and the count saturates at 255; there is no error at any count. -/
def Obligations.CkpushAddsAndCounts : Prop :=
  ∀ b : Byte,
    decode (BitVec.ofNat 64 (0x21 * 2 ^ 56 + b.toNat)) = .ok (.ckpush b) ∧
    ∀ s : State, exec (.ckpush b) s = .next { s with
      ckAcc := BitVec.ofNat 8 ((s.ckAcc.toNat + b.toNat) % 256),
      ckCnt := BitVec.ofNat 8 (min (s.ckCnt.toNat + 1) 255),
      output := s.output ++ [0x0000000000000000#64] }

/-- R112: the response holds `(NOT_8(CK.ACC) + 1) mod 256` and the count, and no register changes. The closed form
`(256 - CK.ACC) mod 256` and that the sum with `CK.ACC` is 0 modulo 256 are the sentence R112 marks as derived from its
pseudocode. -/
def Obligations.CkgetReturnsTheAdditiveInverse : Prop :=
  decode 0x2200000000000000#64 = .ok .ckget ∧
  ∀ s : State, ∃ c : Nat, c < 256 ∧ c = ((255 - s.ckAcc.toNat) + 1) % 256 ∧ c = (256 - s.ckAcc.toNat) % 256 ∧
    (s.ckAcc.toNat + c) % 256 = 0 ∧
    exec .ckget s = .next { s with output := s.output ++ [BitVec.ofNat 64 (c + 256 * s.ckCnt.toNat)] }

/-- R125. -/
def Obligations.AgclrStartsANewAggregation : Prop :=
  decode 0x3000000000000000#64 = .ok .agclr ∧
  ∀ s : State, exec .agclr s = .next { s with
    agSx := 0, agSy := 0, agN := 0, output := s.output ++ [0x0000000000000000#64] }

/-- R126: with 15 points held `E_AGFULL` and nothing pushed; else one point more, the sums exact in every state that
meets the invariant of R23 (in the others, which no run reaches, the sum is the model's choice,
notes/assumptions/4.md). -/
def Obligations.AgpushAddsOnePointOrAnswersFull : Prop :=
  ∀ x y : Half,
    decode (BitVec.ofNat 64 (0x31 * 2 ^ 56 + x.toNat + 2 ^ 16 * y.toNat)) = .ok (.agpush x y) ∧
    (∀ s : State, s.agN = 15#4 → exec (.agpush x y) s = .next { s with
      status := s.status ||| 0b0100#4, output := s.output ++ [0x0300000000000000#64] }) ∧
    (∀ s : State, s.agN ≠ 15#4 → ∃ sx sy : Sum, exec (.agpush x y) s = .next { s with
        agSx := sx, agSy := sy, agN := BitVec.ofNat 4 (s.agN.toNat + 1),
        output := s.output ++ [0x0000000000000000#64] } ∧
      (AggBound s → sx.toNat = s.agSx.toNat + x.toNat ∧ sy.toNat = s.agSy.toNat + y.toNat))

/-- R127: with no point held `E_AGEMPTY`; else the floor of each quotient and the count, exact in every state that meets
the invariant of R23 (in the others, which no run reaches, the two means are the model's choice,
notes/assumptions/4.md), and no accumulator changes. -/
def Obligations.AgmeanReturnsTheMeanOrAnswersEmpty : Prop :=
  decode 0x3200000000000000#64 = .ok .agmean ∧
  (∀ s : State, s.agN = 0#4 → exec .agmean s = .next { s with
    status := s.status ||| 0b1000#4, output := s.output ++ [0x0400000000000000#64] }) ∧
  (∀ s : State, s.agN ≠ 0#4 → ∃ mx my : Half, exec .agmean s = .next { s with
      output := s.output ++ [BitVec.ofNat 64 (mx.toNat + 2 ^ 16 * my.toNat + 2 ^ 32 * s.agN.toNat)] } ∧
    (AggBound s → mx.toNat = s.agSx.toNat / s.agN.toNat ∧ my.toNat = s.agSy.toNat / s.agN.toNat))

/-! ## Laws of the units -/

/-- R96 (a): ENCA is a bijection from numbers onto pairs of bytes: each pair is the answer to exactly one address. -/
def Obligations.EncaIsABijection : Prop :=
  ∀ b0 b1 : Byte, ∃ addr : Half, ∀ (a : Half) (s : State),
    exec (.enca a) s = .next { s with output := s.output ++ [BitVec.ofNat 64 (b0.toNat + 256 * b1.toNat)] } ↔ a = addr

/-- R96 (b), second half: encoding what DECL answered gives the two bytes back. -/
def Obligations.EnclOfDeclGivesTheBytesBack : Prop :=
  ∀ (w0 w1 : Byte) (s : State), ∃ r r' : Word,
    exec (.decl w0 w1) s = .next { s with output := s.output ++ [r] } ∧
    exec (.encl (r.extractLsb' 0 16)) s = .next { s with output := s.output ++ [r'] } ∧
    responseLane r' 0 = w0 ∧ responseLane r' 1 = w1

/-- R96 (c): REV4 of what REV4 answered gives the four bytes back. -/
def Obligations.Rev4TwiceGivesTheBytesBack : Prop :=
  ∀ (w0 w1 w2 w3 : Byte) (s : State), ∃ r r' : Word,
    exec (.rev4 w0 w1 w2 w3) s = .next { s with output := s.output ++ [r] } ∧
    exec (.rev4 (responseLane r 0) (responseLane r 1) (responseLane r 2) (responseLane r 3)) s =
      .next { s with output := s.output ++ [r'] } ∧
    responseLane r' 0 = w0 ∧ responseLane r' 1 = w1 ∧ responseLane r' 2 = w2 ∧ responseLane r' 3 = w3

/-- R96 (e): ENCA and ENCL of the same number give the same two bytes in opposite lanes. -/
def Obligations.EncaAndEnclSwapLanes : Prop :=
  ∀ (n : Half) (s : State), ∃ r r' : Word,
    exec (.enca n) s = .next { s with output := s.output ++ [r] } ∧
    exec (.encl n) s = .next { s with output := s.output ++ [r'] } ∧
    responseLane r 0 = responseLane r' 1 ∧ responseLane r 1 = responseLane r' 0

/-- R81, R83 (POINT): bits 31:0 of a DECP response, presented as the operand of AGPUSH, push the decoded point. -/
def Obligations.DecpResponseIsAnAgpushOperand : Prop :=
  ∀ (w0 w1 w2 w3 w4 w5 : Byte) (s : State), ∃ r : Word,
    exec (.decp w0 w1 w2 w3 w4 w5) s = .next { s with output := s.output ++ [r] } ∧
    decode (0x3100000000000000#64 ||| r) =
      .ok (.agpush (BitVec.ofNat 16 (w0.toNat + 256 * w1.toNat)) (BitVec.ofNat 16 (w2.toNat + 256 * w3.toNat)))

/-- R115 (e): pushing the byte CKGET returned makes CK.ACC zero. -/
def Obligations.PushingTheChecksumZeroesTheSum : Prop :=
  ∀ s : State, ∃ (t u : State) (r : Word), exec .ckget s = .next t ∧ t.output = s.output ++ [r] ∧
    exec (.ckpush (responseLane r 0)) t = .next u ∧ u.ckAcc = 0

/-! ## Sequences of commands -/

/-- R21, R22, R113: from every state, CKCLR, one CKPUSH for each of any bytes, then CKGET: the registers hold the sum
modulo 256 and the saturated count, and the CKGET response holds `(256 - S) mod 256` and that count. -/
def Obligations.ChecksumOfAnyPushedBytes : Prop :=
  ∀ (s : State) (bs : List Byte) (rest : List HostEvent), s.inReset = false → s.input = present (cksum bs) ++ rest →
    Host.Core.run Sys2Proof.core (bs.length + 2) s = .next { s with
      ckAcc := BitVec.ofNat 8 ((bs.map BitVec.toNat).sum % 256),
      ckCnt := BitVec.ofNat 8 (min bs.length 255),
      input := rest,
      output := s.output ++ List.replicate (bs.length + 1) 0x0000000000000000#64 ++
        [BitVec.ofNat 64 ((256 - (bs.map BitVec.toNat).sum % 256) % 256 + 256 * min bs.length 255)] }

/-- R114: the 184 payload bytes and the checksum byte CKGET returned for them sum to a multiple of 256, and CKVFY over
them is answered 0x000000000000B900. -/
def Obligations.BlobInvariantIsVerifiedByCkvfy : Prop :=
  ∀ (s : State) (p : List Byte) (c : Byte) (rest : List HostEvent), s.inReset = false → p.length = 184 →
    s.input = present (cksum p) ++ present (ckvfy (p ++ [c])) ++ rest →
    ∃ (t : State) (r : Word), Host.Core.run Sys2Proof.core (p.length + 2) s = .next t ∧ t.output.getLast? = some r ∧
      (c = responseLane r 0 →
        ((p ++ [c]).map BitVec.toNat).sum % 256 = 0 ∧
        ∃ u : State, Host.Core.run Sys2Proof.core (p.length + 3) t = .next u ∧
          u.output.getLast? = some 0x000000000000B900#64 ∧ u.ckAcc = 0)

/-- R58 (a), R155: whatever command words but the RST word and the CKCLR word come between, words that are answered with
an error included, CK.ACC is its old value plus the sum of exactly the bytes of the CKPUSH words, modulo 256, and CK.CNT
its old value plus their number, saturating at 255. -/
def Obligations.ChecksumCountsExactlyThePushes : Prop :=
  ∀ (s : State) (ws : List Word) (rest : List HostEvent), s.inReset = false → s.input = ws.map .command ++ rest →
    0x0100000000000000#64 ∉ ws → 0x2000000000000000#64 ∉ ws →
    ∃ t : State, Host.Core.run Sys2Proof.core ws.length s = .next t ∧
      t.ckAcc.toNat = (s.ckAcc.toNat + (ws.map pushedByte).sum) % 256 ∧
      t.ckCnt.toNat = min (s.ckCnt.toNat + ws.countP isCkpush) 255

/-- R115 (b): the order of the pushes does not matter to the checksum unit. -/
def Obligations.ChecksumIgnoresTheOrderOfPushes : Prop :=
  ∀ (s₁ s₂ : State) (bs₁ bs₂ : List Byte) (rest₁ rest₂ : List HostEvent), bs₁.Perm bs₂ →
    s₁.inReset = false → s₂.inReset = false → SameChecksum s₁ s₂ →
    s₁.input = present (bs₁.map .ckpush) ++ rest₁ → s₂.input = present (bs₂.map .ckpush) ++ rest₂ →
    ∃ t₁ t₂ : State, Host.Core.run Sys2Proof.core bs₁.length s₁ = .next t₁ ∧
      Host.Core.run Sys2Proof.core bs₂.length s₂ = .next t₂ ∧ SameChecksum t₁ t₂

/-- R23, R125 to R128 (that the sequence gives R128's mean is what R128 marks as derived): from every state, AGCLR, one AGPUSH for each of 1 to 15 points, then AGMEAN: the registers hold the exact
sums and the number, and the AGMEAN response holds the floor of each mean and the number. -/
def Obligations.MeanOfAnyPushedPoints : Prop :=
  ∀ (s : State) (ps : List (Half × Half)) (rest : List HostEvent), s.inReset = false →
    1 ≤ ps.length → ps.length ≤ 15 → s.input = present (avg ps) ++ rest →
    ∃ t : State, Host.Core.run Sys2Proof.core (ps.length + 2) s = .next t ∧
      t.agSx.toNat = (ps.map fun p => p.1.toNat).sum ∧
      t.agSy.toNat = (ps.map fun p => p.2.toNat).sum ∧
      t.agN.toNat = ps.length ∧
      t = { s with
        agSx := t.agSx, agSy := t.agSy, agN := t.agN, input := rest,
        output := s.output ++ List.replicate (ps.length + 1) 0x0000000000000000#64 ++
          [BitVec.ofNat 64 ((ps.map fun p => p.1.toNat).sum / ps.length +
            2 ^ 16 * ((ps.map fun p => p.2.toNat).sum / ps.length) + 2 ^ 32 * ps.length)] }

/-- R130 (c): the mean of each axis lies between any lower and any upper bound of the pushed values, so it lies between
their minimum and their maximum. -/
def Obligations.MeanLiesBetweenThePushedValues : Prop :=
  ∀ (s : State) (ps : List (Half × Half)) (rest : List HostEvent) (lo hi : Half), s.inReset = false →
    1 ≤ ps.length → ps.length ≤ 15 → s.input = present (avg ps) ++ rest →
    ∃ (t : State) (r : Word), Host.Core.run Sys2Proof.core (ps.length + 2) s = .next t ∧
      t.output.getLast? = some r ∧ responseStatus r = 0 ∧
      ((∀ p ∈ ps, lo.toNat ≤ p.1.toNat ∧ p.1.toNat ≤ hi.toNat) →
        lo.toNat ≤ r.toNat % 2 ^ 16 ∧ r.toNat % 2 ^ 16 ≤ hi.toNat) ∧
      ((∀ p ∈ ps, lo.toNat ≤ p.2.toNat ∧ p.2.toNat ≤ hi.toNat) →
        lo.toNat ≤ r.toNat / 2 ^ 16 % 2 ^ 16 ∧ r.toNat / 2 ^ 16 % 2 ^ 16 ≤ hi.toNat)

/-- R58 (b), R155, R23: whatever command words but the RST word and the AGCLR word come between, words that are answered
with an error included, as long as at most 15 points are held at the end, the aggregator holds its old number and sums
plus exactly the points of the AGPUSH words. -/
def Obligations.AggregatorSumsExactlyThePushes : Prop :=
  ∀ (s : State) (ws : List Word) (rest : List HostEvent), s.inReset = false → AggBound s →
    s.input = ws.map .command ++ rest → 0x0100000000000000#64 ∉ ws → 0x3000000000000000#64 ∉ ws →
    s.agN.toNat + ws.countP isAgpush ≤ 15 →
    ∃ t : State, Host.Core.run Sys2Proof.core ws.length s = .next t ∧
      t.agN.toNat = s.agN.toNat + ws.countP isAgpush ∧
      t.agSx.toNat = s.agSx.toNat + (ws.map pushedX).sum ∧
      t.agSy.toNat = s.agSy.toNat + (ws.map pushedY).sum
end

