-- ==== Sys2Proof/Laws/Bits.lean ====
section
/-! SUPPORT. Bit-level definitions as arithmetic on naturals: concatenation, the fields of command and response words, the
operand and response layouts, the masks of the opcode map. With these a claim about words is a claim for `omega`. -/

namespace Sys2Proof

/-- Concatenation is positional: the left part counts `2 ^ n`. -/
theorem toNat_append_eq {m n : Nat} (x : BitVec m) (y : BitVec n) :
    (x ++ y).toNat = x.toNat * 2 ^ n + y.toNat := by
  rw [BitVec.toNat_append, ← Nat.shiftLeft_add_eq_or_of_lt y.isLt, Nat.shiftLeft_eq]

theorem opcodeField_toNat (c : Word) : (opcodeField c).toNat = c.toNat / 2 ^ 56 := by
  have := c.isLt
  simp [opcodeField, Nat.shiftRight_eq_div_pow]; omega

theorem operandByte_toNat (c : Word) (k : Nat) : (operandByte c k).toNat = c.toNat / 2 ^ (8 * k) % 2 ^ 8 := by
  simp [operandByte, Nat.shiftRight_eq_div_pow]

theorem operandHalf_toNat (c : Word) (k : Nat) : (operandHalf c k).toNat = c.toNat / 2 ^ (8 * k) % 2 ^ 16 := by
  simp [operandHalf, Nat.shiftRight_eq_div_pow]

theorem commandWord_toNat (op : Byte) (x : Lanes) : (commandWord op x).toNat = op.toNat * 2 ^ 56 + x.toNat := by
  simp only [commandWord, toNat_append_eq, BitVec.toNat_ofNat]; omega

/-- Equality of the bits that a mask of all high bits from `k` up keeps is equality of quotients by `2 ^ k`. -/
theorem and_highMask_eq_iff (k : Nat) (c p : Word) (hp : p.toNat % 2 ^ k = 0) :
    c &&& (BitVec.allOnes 64 <<< k) = p ↔ c.toNat / 2 ^ k = p.toNat / 2 ^ k := by
  have key : c &&& (BitVec.allOnes 64 <<< k) = (c >>> k) <<< k := by
    ext i hi
    simp only [BitVec.getElem_and, BitVec.getElem_shiftLeft, BitVec.getElem_ushiftRight, BitVec.getElem_allOnes]
    by_cases h : i < k
    · simp [h]
    · simp [h, Nat.add_sub_cancel' (Nat.le_of_not_lt h), BitVec.getLsbD_eq_getElem hi]
  rw [key, ← BitVec.toNat_inj]
  simp only [BitVec.toNat_shiftLeft, BitVec.toNat_ushiftRight, Nat.shiftLeft_eq, Nat.shiftRight_eq_div_pow]
  have hc : c.toNat / 2 ^ k * 2 ^ k ≤ c.toNat := Nat.div_mul_le_self _ _
  have := c.isLt
  rw [Nat.mod_eq_of_lt (by omega)]
  have hpos : 0 < 2 ^ k := Nat.pow_pos (by decide)
  constructor
  · intro h; rw [← h, Nat.mul_div_cancel _ hpos]
  · intro h; rw [h]; exact Nat.div_mul_cancel (Nat.dvd_of_mod_eq_zero hp)

end Sys2Proof

namespace Sys2Proof.Machine

theorem responseWord_toNat (code : Byte) (d : Lanes) :
    (responseWord code d).toNat = code.toNat * 2 ^ 56 + d.toNat := by
  simp only [responseWord, toNat_append_eq, BitVec.toNat_ofNat]; omega

theorem errorWord_toNat (e : ErrorKind) : (errorWord e).toNat = (errorCode e).toNat * 2 ^ 56 := by
  simp [errorWord, responseWord_toNat]

theorem hiByte_toNat (h : Half) : (hiByte h).toNat = h.toNat / 256 := by
  have := h.isLt
  simp [hiByte, Nat.shiftRight_eq_div_pow]; omega

theorem loByte_toNat (h : Half) : (loByte h).toNat = h.toNat % 256 := by
  simp [loByte]

theorem fromLittleEndian_toNat (a b : Byte) : (fromLittleEndian a b).toNat = a.toNat + 256 * b.toNat := by
  have ha := a.isLt
  have hb := b.isLt
  simp only [fromLittleEndian, BitVec.toNat_or, BitVec.toNat_shiftLeft, BitVec.toNat_setWidth, Nat.shiftLeft_eq]
  rw [Nat.mod_eq_of_lt (show a.toNat < 2 ^ 16 by omega), Nat.mod_eq_of_lt (show b.toNat < 2 ^ 16 by omega),
    Nat.mod_eq_of_lt (show b.toNat * 2 ^ 8 < 2 ^ 16 by omega), Nat.or_comm, ← Nat.shiftLeft_eq,
    ← Nat.shiftLeft_add_eq_or_of_lt (by omega : a.toNat < 2 ^ 8), Nat.shiftLeft_eq]
  omega

theorem dataOfBytes2_toNat (b0 b1 : Byte) : (dataOfBytes2 b0 b1).toNat = b0.toNat + 2 ^ 8 * b1.toNat := by
  simp only [dataOfBytes2, toNat_append_eq, BitVec.toNat_ofNat]; omega

theorem dataOfBytes4_toNat (b0 b1 b2 b3 : Byte) :
    (dataOfBytes4 b0 b1 b2 b3).toNat = b0.toNat + 2 ^ 8 * b1.toNat + 2 ^ 16 * b2.toNat + 2 ^ 24 * b3.toNat := by
  simp only [dataOfBytes4, toNat_append_eq, BitVec.toNat_ofNat]; omega

theorem dataOfHalf_toNat (v : Half) : (dataOfHalf v).toNat = v.toNat := by
  have := v.isLt
  simp only [dataOfHalf, BitVec.toNat_setWidth]; omega

theorem dataOfPoint_toNat (x y : Half) : (dataOfPoint x y).toNat = x.toNat + 2 ^ 16 * y.toNat := by
  simp only [dataOfPoint, toNat_append_eq, BitVec.toNat_ofNat]; omega

theorem dataOfChecksum_toNat (c n : Byte) : (dataOfChecksum c n).toNat = c.toNat + 256 * n.toNat := by
  simp only [dataOfChecksum, toNat_append_eq, BitVec.toNat_ofNat]; omega

theorem dataOfMean_toNat (x y : Half) (n : Nibble) :
    (dataOfMean x y n).toNat = x.toNat + 2 ^ 16 * y.toNat + 2 ^ 32 * n.toNat := by
  have := n.isLt
  simp only [dataOfMean, toNat_append_eq, BitVec.toNat_setWidth]; omega

theorem dataOfByte_statusByte_toNat (f : Nibble) : (dataOfByte (statusByte f)).toNat = f.toNat := by
  have := f.isLt
  simp only [dataOfByte, statusByte, BitVec.toNat_setWidth]; omega

/-! ## The accumulators' arithmetic -/

theorem checksumAdd_toNat (a b : Byte) : (checksumAdd a b).toNat = (a.toNat + b.toNat) % 256 := by
  simp [checksumAdd]

theorem countUp_toNat (n : Byte) : (countUp n).toNat = min (n.toNat + 1) 255 := by
  simp only [countUp, Config.ckCntMax, BitVec.toNat_ofNat]; omega

/-- The closed form of R112. -/
theorem checksumOf_toNat (a : Byte) : (checksumOf a).toNat = (256 - a.toNat) % 256 := by
  have h : a ^^^ 0xFF#8 = ~~~ a := by
    rw [show (0xFF#8) = BitVec.allOnes 8 from rfl, BitVec.xor_allOnes]
  have := a.isLt
  simp only [checksumOf, h, BitVec.toNat_add, BitVec.toNat_not, BitVec.toNat_ofNat]; omega

theorem sumAdd_toNat (a : Sum) (v : Half) : (sumAdd a v).toNat = (a.toNat + v.toNat) % 2 ^ 20 := by
  have := v.isLt
  simp only [sumAdd, BitVec.toNat_add, BitVec.toNat_setWidth]; omega

/-- R126: with the bound of R23 and fewer than 15 points the sum is exact. -/
theorem sumAdd_exact (a : Sum) (v : Half) (n : Nat) (h : a.toNat ≤ 65535 * n) (hn : n < 15) :
    (sumAdd a v).toNat = a.toNat + v.toNat := by
  have := v.isLt
  rw [sumAdd_toNat]; omega

theorem meanOf_toNat (a : Sum) (n : Nibble) : (meanOf a n).toNat = a.toNat / n.toNat % 2 ^ 16 := by
  have := n.isLt
  simp only [meanOf, BitVec.toNat_setWidth, BitVec.toNat_udiv]
  rw [Nat.mod_eq_of_lt (show n.toNat < 2 ^ 20 by omega)]

/-- R127: with the bound of R23 each quotient fits 16 bits. -/
theorem meanOf_exact (a : Sum) (n : Nibble) (h : a.toNat ≤ 65535 * n.toNat) :
    (meanOf a n).toNat = a.toNat / n.toNat := by
  rw [meanOf_toNat]
  apply Nat.mod_eq_of_lt
  have : a.toNat / n.toNat ≤ 65535 := Nat.div_le_of_le_mul (by rw [Nat.mul_comm]; exact h)
  omega

end Sys2Proof.Machine
end

