-- ==== Sys2Proof/Laws/Decode.lean ====
section
/-! SUPPORT. The decoder and the encoder as arithmetic: what the rows of the opcode map say, when a word decodes, and the
number an encoded word is. -/

namespace Sys2Proof

theorem Op.mem_all (m : Op) : m ∈ Op.all := by cases m <;> decide

theorem Op.opcode_injective {m m' : Op} (h : m.opcode = m'.opcode) : m = m' := by
  revert h; cases m <;> cases m' <;> decide

/-- Every mask is "all bits from the format's operand bits up". -/
theorem Op.mask_eq (m : Op) : m.mask = BitVec.allOnes 64 <<< m.format.operandBits := by
  cases m <;> decide

theorem Op.pattern_toNat (m : Op) : m.pattern.toNat = m.opcode.toNat * 2 ^ 56 := by
  cases m <;> decide

theorem Format.operandBits_le (f : Format) : f.operandBits ≤ 48 := by cases f <;> decide

theorem rowOf_eq_some_iff (b : Byte) (m : Op) : rowOf b = some m ↔ m.opcode = b := by
  constructor
  · intro h; simpa using List.find?_some h
  · rintro rfl; cases m <;> decide

theorem rowOf_eq_none_iff (b : Byte) : rowOf b = none ↔ ∀ m : Op, m.opcode ≠ b := by
  rw [Option.eq_none_iff_forall_ne_some]
  exact forall_congr' fun m => not_congr (rowOf_eq_some_iff b m)

/-- A word fits a row exactly when its opcode is the row's and everything between the opcode and the format's operand
bits is zero. -/
theorem fits_iff (m : Op) (c : Word) :
    c &&& m.mask = m.pattern ↔ c.toNat / 2 ^ m.format.operandBits = m.opcode.toNat * 2 ^ (56 - m.format.operandBits) := by
  rw [Op.mask_eq, and_highMask_eq_iff, Op.pattern_toNat]
  · cases m <;> simp only [Op.format, Format.operandBits, Op.opcode, BitVec.toNat_ofNat] <;> omega
  · rw [Op.pattern_toNat]
    cases m <;> simp only [Op.format, Format.operandBits, Op.opcode, BitVec.toNat_ofNat] <;> omega

/-- A word that fits a row carries the row's opcode. -/
theorem opcodeField_of_fits {m : Op} {c : Word} (h : c &&& m.mask = m.pattern) : opcodeField c = m.opcode := by
  rw [fits_iff] at h
  have := c.isLt
  apply BitVec.eq_of_toNat_eq
  rw [opcodeField_toNat]
  revert h
  cases m <;> simp only [Op.format, Format.operandBits, Op.opcode, BitVec.toNat_ofNat] <;> omega

/-- When a word decodes, and to what. -/
theorem decode_eq_ok_iff (c : Word) (i : Instr) :
    decode c = .ok i ↔ ∃ m : Op, c &&& m.mask = m.pattern ∧ extract m c = i := by
  unfold decode
  constructor
  · intro h
    split at h
    · cases h
    · rename_i m _
      split at h
      · rename_i hf; cases h; exact ⟨m, hf, rfl⟩
      · cases h
  · rintro ⟨m, hf, rfl⟩
    rw [(rowOf_eq_some_iff _ m).2 (opcodeField_of_fits hf).symm]
    simp [hf]

/-- When a word is refused for its opcode. -/
theorem decode_eq_illop_iff (c : Word) : decode c = .error .illop ↔ ∀ m : Op, m.opcode ≠ opcodeField c := by
  rw [← rowOf_eq_none_iff]
  unfold decode
  split
  · simp_all
  · split <;> simp_all

/-- When a word is refused for a reserved bit. -/
theorem decode_eq_rsvd_iff (c : Word) :
    decode c = .error .rsvd ↔ ∃ m : Op, m.opcode = opcodeField c ∧ c &&& m.mask ≠ m.pattern := by
  unfold decode
  constructor
  · intro h
    split at h
    · cases h
    · rename_i m hm
      split at h
      · cases h
      · rename_i hf; exact ⟨m, (rowOf_eq_some_iff _ _).1 hm, hf⟩
  · rintro ⟨m, hm, hf⟩
    rw [(rowOf_eq_some_iff _ m).2 hm]
    simp [hf]

theorem extract_op (m : Op) (c : Word) : (extract m c).op = m := by cases m <;> rfl

/-- The operand of an instruction as a number. -/
theorem encode_toNat (i : Instr) : (encode i).toNat = i.op.opcode.toNat * 2 ^ 56 + (operandOf i).toNat :=
  commandWord_toNat _ _

end Sys2Proof
end

