-- ==== Sys2Proof/Laws/PerInstr.lean ====
section
/-! SUPPORT. Statements made per instruction: `ReservedZero` says that the encoder puts the row's opcode and zero in
every reserved bit of the word (30_encoding.md R82, R76). -/

namespace Sys2Proof.Laws.ReservedZero

/-- The word of the instruction fits the row of its operation. -/
def Statement (i : Instr) : Prop :=
  encode i &&& i.op.mask = i.op.pattern

/-- It suffices that the operand stays below the format's operand bits. -/
theorem of_operand_lt (i : Instr) (h : (operandOf i).toNat < 2 ^ i.op.format.operandBits) : Statement i := by
  rw [Statement, fits_iff, encode_toNat]
  revert h
  cases i <;> simp only [Instr.op, Op.format, Format.operandBits, Op.opcode, BitVec.toNat_ofNat] <;> omega

theorem nop : Statement .nop := of_operand_lt _ (by decide)

theorem rst : Statement .rst := of_operand_lt _ (by decide)

theorem rdst : Statement .rdst := of_operand_lt _ (by decide)

theorem enca (addr : Half) : Statement (.enca addr) := of_operand_lt _ (by
  have := addr.isLt
  simp only [operandOf, toNat_append_eq, Instr.op, Op.format, Format.operandBits, BitVec.toNat_ofNat]; omega)

theorem decl (w0 w1 : Byte) : Statement (.decl w0 w1) := of_operand_lt _ (by
  simp only [operandOf, toNat_append_eq, Instr.op, Op.format, Format.operandBits, BitVec.toNat_ofNat]; omega)

theorem encl (v : Half) : Statement (.encl v) := of_operand_lt _ (by
  have := v.isLt
  simp only [operandOf, toNat_append_eq, Instr.op, Op.format, Format.operandBits, BitVec.toNat_ofNat]; omega)

theorem rev4 (w0 w1 w2 w3 : Byte) : Statement (.rev4 w0 w1 w2 w3) := of_operand_lt _ (by
  simp only [operandOf, toNat_append_eq, Instr.op, Op.format, Format.operandBits, BitVec.toNat_ofNat]; omega)

theorem decp (w0 w1 w2 w3 w4 w5 : Byte) : Statement (.decp w0 w1 w2 w3 w4 w5) :=
  of_operand_lt _ (operandOf _).isLt

theorem ckclr : Statement .ckclr := of_operand_lt _ (by decide)

theorem ckpush (b : Byte) : Statement (.ckpush b) := of_operand_lt _ (by
  have := b.isLt
  simp only [operandOf, toNat_append_eq, Instr.op, Op.format, Format.operandBits, BitVec.toNat_ofNat]; omega)

theorem ckget : Statement .ckget := of_operand_lt _ (by decide)

theorem agclr : Statement .agclr := of_operand_lt _ (by decide)

theorem agpush (x y : Half) : Statement (.agpush x y) := of_operand_lt _ (by
  simp only [operandOf, toNat_append_eq, Instr.op, Op.format, Format.operandBits, BitVec.toNat_ofNat]; omega)

theorem agmean : Statement .agmean := of_operand_lt _ (by decide)

end Sys2Proof.Laws.ReservedZero
end

