-- ==== Sys2Proof/Laws/State.lean ====
section
/-! SUPPORT. One lemma per field per update of the state, and each field at reset. -/

namespace Sys2Proof.Machine

/-! ## A response only extends the output. -/

@[simp] theorem State.emit_ckAcc (s : State) (r : Word) : (s.emit r).ckAcc = s.ckAcc := rfl
@[simp] theorem State.emit_ckCnt (s : State) (r : Word) : (s.emit r).ckCnt = s.ckCnt := rfl
@[simp] theorem State.emit_agSx (s : State) (r : Word) : (s.emit r).agSx = s.agSx := rfl
@[simp] theorem State.emit_agSy (s : State) (r : Word) : (s.emit r).agSy = s.agSy := rfl
@[simp] theorem State.emit_agN (s : State) (r : Word) : (s.emit r).agN = s.agN := rfl
@[simp] theorem State.emit_status (s : State) (r : Word) : (s.emit r).status = s.status := rfl
@[simp] theorem State.emit_inReset (s : State) (r : Word) : (s.emit r).inReset = s.inReset := rfl
@[simp] theorem State.emit_input (s : State) (r : Word) : (s.emit r).input = s.input := rfl
@[simp] theorem State.emit_output (s : State) (r : Word) : (s.emit r).output = s.output ++ [r] := rfl

/-! ## CKCLR's writes. -/

@[simp] theorem State.clearChecksum_ckAcc (s : State) : (s.clearChecksum).ckAcc = 0x00#8 := rfl
@[simp] theorem State.clearChecksum_ckCnt (s : State) : (s.clearChecksum).ckCnt = 0x00#8 := rfl
@[simp] theorem State.clearChecksum_agSx (s : State) : (s.clearChecksum).agSx = s.agSx := rfl
@[simp] theorem State.clearChecksum_agSy (s : State) : (s.clearChecksum).agSy = s.agSy := rfl
@[simp] theorem State.clearChecksum_agN (s : State) : (s.clearChecksum).agN = s.agN := rfl
@[simp] theorem State.clearChecksum_status (s : State) : (s.clearChecksum).status = s.status := rfl
@[simp] theorem State.clearChecksum_inReset (s : State) : (s.clearChecksum).inReset = s.inReset := rfl
@[simp] theorem State.clearChecksum_input (s : State) : (s.clearChecksum).input = s.input := rfl
@[simp] theorem State.clearChecksum_output (s : State) : (s.clearChecksum).output = s.output := rfl

/-! ## AGCLR's writes. -/

@[simp] theorem State.clearAggregator_ckAcc (s : State) : (s.clearAggregator).ckAcc = s.ckAcc := rfl
@[simp] theorem State.clearAggregator_ckCnt (s : State) : (s.clearAggregator).ckCnt = s.ckCnt := rfl
@[simp] theorem State.clearAggregator_agSx (s : State) : (s.clearAggregator).agSx = 0#20 := rfl
@[simp] theorem State.clearAggregator_agSy (s : State) : (s.clearAggregator).agSy = 0#20 := rfl
@[simp] theorem State.clearAggregator_agN (s : State) : (s.clearAggregator).agN = 0#4 := rfl
@[simp] theorem State.clearAggregator_status (s : State) : (s.clearAggregator).status = s.status := rfl
@[simp] theorem State.clearAggregator_inReset (s : State) : (s.clearAggregator).inReset = s.inReset := rfl
@[simp] theorem State.clearAggregator_input (s : State) : (s.clearAggregator).input = s.input := rfl
@[simp] theorem State.clearAggregator_output (s : State) : (s.clearAggregator).output = s.output := rfl

/-! ## The writes of RST and of hardware reset. -/

@[simp] theorem State.clearRegisters_ckAcc (s : State) : (s.clearRegisters).ckAcc = 0x00#8 := rfl
@[simp] theorem State.clearRegisters_ckCnt (s : State) : (s.clearRegisters).ckCnt = 0x00#8 := rfl
@[simp] theorem State.clearRegisters_agSx (s : State) : (s.clearRegisters).agSx = 0#20 := rfl
@[simp] theorem State.clearRegisters_agSy (s : State) : (s.clearRegisters).agSy = 0#20 := rfl
@[simp] theorem State.clearRegisters_agN (s : State) : (s.clearRegisters).agN = 0#4 := rfl
@[simp] theorem State.clearRegisters_status (s : State) : (s.clearRegisters).status = 0#4 := rfl
@[simp] theorem State.clearRegisters_inReset (s : State) : (s.clearRegisters).inReset = s.inReset := rfl
@[simp] theorem State.clearRegisters_input (s : State) : (s.clearRegisters).input = s.input := rfl
@[simp] theorem State.clearRegisters_output (s : State) : (s.clearRegisters).output = s.output := rfl

/-! ## Presenting an opcode-table word. -/

@[simp] theorem State.withFetchWord_ckAcc (s : State) (nbits w : Nat) : (s.withFetchWord nbits w).ckAcc = s.ckAcc := rfl
@[simp] theorem State.withFetchWord_ckCnt (s : State) (nbits w : Nat) : (s.withFetchWord nbits w).ckCnt = s.ckCnt := rfl
@[simp] theorem State.withFetchWord_agSx (s : State) (nbits w : Nat) : (s.withFetchWord nbits w).agSx = s.agSx := rfl
@[simp] theorem State.withFetchWord_agSy (s : State) (nbits w : Nat) : (s.withFetchWord nbits w).agSy = s.agSy := rfl
@[simp] theorem State.withFetchWord_agN (s : State) (nbits w : Nat) : (s.withFetchWord nbits w).agN = s.agN := rfl
@[simp] theorem State.withFetchWord_status (s : State) (nbits w : Nat) : (s.withFetchWord nbits w).status = s.status := rfl
@[simp] theorem State.withFetchWord_inReset (s : State) (nbits w : Nat) : (s.withFetchWord nbits w).inReset = false := rfl
@[simp] theorem State.withFetchWord_input (s : State) (nbits w : Nat) : (s.withFetchWord nbits w).input = .command (tableWord nbits w) :: s.input := rfl
@[simp] theorem State.withFetchWord_output (s : State) (nbits w : Nat) : (s.withFetchWord nbits w).output = s.output := rfl

/-! ## The reset state -/

@[simp] theorem State.reset_ckAcc : State.reset.ckAcc = 0x00#8 := rfl
@[simp] theorem State.reset_ckCnt : State.reset.ckCnt = 0x00#8 := rfl
@[simp] theorem State.reset_agSx : State.reset.agSx = 0#20 := rfl
@[simp] theorem State.reset_agSy : State.reset.agSy = 0#20 := rfl
@[simp] theorem State.reset_agN : State.reset.agN = 0#4 := rfl
@[simp] theorem State.reset_status : State.reset.status = 0#4 := rfl
@[simp] theorem State.reset_inReset : State.reset.inReset = false := rfl
@[simp] theorem State.reset_input : State.reset.input = [] := rfl
@[simp] theorem State.reset_output : State.reset.output = [] := rfl

end Sys2Proof.Machine
end

