-- ==== Sys2Proof/Laws/Step.lean ====
section
/-! SUPPORT. What each shared operation, a meaning and a step can do, said once; and runs cut into steps. -/

namespace Sys2Proof.Machine

/-! ## The shared operations -/

theorem respond_eq (d : Lanes) (s : State) :
    respond d s = .next { s with output := s.output ++ [responseWord 0x00#8 d] } := rfl

theorem raise_eq (e : ErrorKind) (s : State) :
    raise e s = .next { s with status := s.status ||| errorFlag e, output := s.output ++ [errorWord e] } := rfl

/-- AGPUSH on its error path. -/
theorem execAgpush_full (x y : Half) (s : State) (h : s.agN = 15#4) : execAgpush x y s = raise .agfull s := by
  simp [execAgpush, h, Config.agMaxN]

/-- AGPUSH with fewer than 15 points. -/
theorem execAgpush_room (x y : Half) (s : State) (h : s.agN ≠ 15#4) : execAgpush x y s =
    respond 0#48 { s with agSx := sumAdd s.agSx x, agSy := sumAdd s.agSy y, agN := s.agN + 1#4 } := by
  have : s.agN.toNat ≠ 15 := fun e => h (BitVec.eq_of_toNat_eq e)
  simp [execAgpush, Config.agMaxN, this]

/-- AGMEAN on its error path. -/
theorem execAgmean_none (s : State) (h : s.agN = 0#4) : execAgmean s = raise .agempty s := by
  simp [execAgmean, h]

/-- AGMEAN with a point held. -/
theorem execAgmean_some (s : State) (h : s.agN ≠ 0#4) : execAgmean s =
    respond (dataOfMean (meanOf s.agSx s.agN) (meanOf s.agSy s.agN) s.agN) s := by
  have : s.agN.toNat ≠ 0 := fun e => h (BitVec.eq_of_toNat_eq e)
  simp [execAgmean, this]

/-! ## The step -/

/-- A step serves the host's next event in the state without it. -/
theorem step_cons {s : State} {e : HostEvent} {rest : List HostEvent} (h : s.input = e :: rest) :
    step s = serve e { s with input := rest } := by
  simp [step, takeEvent, h]

/-- A presented command is decoded and run in the state without it. -/
theorem step_command {s : State} {w : Word} {rest : List HostEvent} (hr : s.inReset = false)
    (h : s.input = .command w :: rest) : step s = execWord w { s with input := rest } := by
  simp [step_cons h, serve, serveCommand, hr]

theorem execWord_ok {w : Word} {i : Instr} (h : decode w = .ok i) (s : State) : execWord w s = exec i s := by
  simp [execWord, h]

theorem execWord_error {w : Word} {e : DecodeError} (h : decode w = .error e) (s : State) :
    execWord w s = raise (decodeErrorKind e) s := by
  simp [execWord, h]

/-- Everything a word can do: an error of the decoder, or a decoded instruction. -/
theorem execWord_cases (w : Word) (s : State) :
    (decode w = .error .illop ∧ execWord w s = raise .illop s) ∨
    (decode w = .error .rsvd ∧ execWord w s = raise .rsvd s) ∨
    ∃ i, decode w = .ok i ∧ execWord w s = exec i s := by
  cases h : decode w with
  | ok i => exact .inr (.inr ⟨i, rfl, execWord_ok h s⟩)
  | error e =>
    cases e with
    | illop => exact .inl ⟨rfl, execWord_error h s⟩
    | rsvd => exact .inr (.inl ⟨rfl, execWord_error h s⟩)

/-- Everything a step can do. -/
theorem step_cases {s t : State} (h : step s = .next t) :
    (s.input = [] ∧ t = s) ∨
    (∃ w rest, s.input = .command w :: rest ∧ s.inReset = true ∧ t = { s with input := rest }) ∨
    (∃ w rest, s.input = .command w :: rest ∧ s.inReset = false ∧ execWord w { s with input := rest } = .next t) ∨
    (∃ a rest, s.input = .resetLine a :: rest ∧ (a || s.inReset) = true ∧
      t = { ({ s with input := rest } : State).clearRegisters with inReset := a }) ∨
    (∃ rest, s.input = .resetLine false :: rest ∧ s.inReset = false ∧ t = { s with input := rest }) := by
  match hi : s.input with
  | [] =>
    simp only [step, takeEvent, hi, idle, Host.Outcome.next.injEq] at h
    exact .inl ⟨rfl, h.symm⟩
  | .command w :: rest =>
    rw [step_cons hi] at h
    cases hr : s.inReset with
    | true =>
      simp only [serve, serveCommand, hr, if_true, Host.Outcome.next.injEq] at h
      exact .inr (.inl ⟨w, rest, rfl, rfl, h.symm⟩)
    | false =>
      simp only [serve, serveCommand, hr, Bool.false_eq_true, if_false] at h
      exact .inr (.inr (.inl ⟨w, rest, rfl, rfl, h⟩))
  | .resetLine a :: rest =>
    rw [step_cons hi] at h
    simp only [serve, driveReset] at h
    split at h
    · rename_i hc
      exact .inr (.inr (.inr (.inl ⟨a, rest, rfl, hc, (Host.Outcome.next.inj h).symm⟩)))
    · rename_i hc
      simp only [Bool.or_eq_true, not_or, Bool.not_eq_true] at hc
      exact .inr (.inr (.inr (.inr ⟨rest, by rw [hc.1], hc.2, (Host.Outcome.next.inj h).symm⟩)))
  | .concurrent a b :: rest =>
    rw [step_cons hi] at h
    cases h

/-! ## Runs -/

/-- The first step of a run, for any machine. -/
theorem core_run_succ (M : Host.Core) (k : Nat) (s : M.State) :
    M.run (k + 1) s = match M.step s with
      | .next s' => M.run k s'
      | .fault r => .fault r
      | .refused r => .refused r := by
  cases h : M.step s <;> simp only [Host.Core.run, h]

/-- A run of `k + 1` steps whose first step answers `t` is the run of `k` steps from `t`. -/
theorem run_succ {s t : State} (k : Nat) (h : step s = .next t) :
    Host.Core.run Sys2Proof.core (k + 1) s = Host.Core.run Sys2Proof.core k t :=
  (core_run_succ Sys2Proof.core k s).trans (by rw [show Sys2Proof.core.step s = .next t from h])

/-- A run that answers began with a step that answers. -/
theorem run_succ_inv {s t : State} {k : Nat} (h : Host.Core.run Sys2Proof.core (k + 1) s = .next t) :
    ∃ u, step s = .next u ∧ Host.Core.run Sys2Proof.core k u = .next t := by
  have h' := (core_run_succ Sys2Proof.core k s).symm.trans h
  split at h'
  · rename_i u hu; exact ⟨u, hu, h'⟩
  · cases h'
  · cases h'

/-- Runs compose. -/
theorem run_add {s t : State} (m n : Nat) (h : Host.Core.run Sys2Proof.core m s = .next t) :
    Host.Core.run Sys2Proof.core (m + n) s = Host.Core.run Sys2Proof.core n t := by
  induction m generalizing s with
  | zero => cases h; rw [Nat.zero_add]
  | succ m ih =>
    obtain ⟨u, hu, h⟩ := run_succ_inv h
    rw [Nat.add_right_comm, run_succ _ hu]
    exact ih h

end Sys2Proof.Machine
end

