-- ==== Sys2Proof/Machine/Gt911.lean ====
section
/-! DEFINITION. CONTEXT, not the block: what the spec's context rules say of the GT911's register space and of the host's
protocol (20_memory.md R41 to R54, R59, R63; 60_exceptions.md R161; 70_reset_and_hazards.md R181 to R183, R187). Pure
functions; no step of the block calls them and no claim about the block rests on them (notes/assumptions/9.md). -/

namespace Sys2Proof.Gt911

open Sys2Proof.Machine

/-! ## The register map (R42, R43) -/

/-- The registers of the map; five point blocks. -/
inductive Reg where
  | command | config | productId | fwVersion | coordStatus
  | pointX (i : Fin 5)
  | pointY (i : Fin 5)
  deriving DecidableEq, Repr

/-- The Access column of R42. -/
inductive Access where
  | readOnly | writeOnly | readWrite
  deriving DecidableEq, Repr

/-- The start address of point block `i`: `0x8150 + i*8` (R43); the host computes it. -/
def pointAddr (i : Nat) : Half :=
  Config.ptBase + BitVec.ofNat 16 (i * Config.ptStride)

/-- The first address of a register. -/
def addressOf : Reg → Half
  | .command => 0x8040#16
  | .config => 0x8047#16
  | .productId => 0x8140#16
  | .fwVersion => 0x8144#16
  | .coordStatus => 0x814E#16
  | .pointX i => pointAddr i
  | .pointY i => pointAddr i + 2#16

/-- The width of a register in bytes. -/
def widthOf : Reg → Nat
  | .command => 1
  | .config => Config.blobLen
  | .productId => 4
  | .fwVersion => 2
  | .coordStatus => 1
  | .pointX _ => 2
  | .pointY _ => 2

/-- The access of a register. -/
def accessOf : Reg → Access
  | .command => .writeOnly
  | .config => .readWrite
  | .productId => .readOnly
  | .fwVersion => .readOnly
  | .coordStatus => .readWrite
  | .pointX _ => .readOnly
  | .pointY _ => .readOnly

/-- The commands of R53; codes above 0x05 are not described. -/
inductive GtCommand where
  | read | diffval | softreset | baseupdate | calibrate | screenOff
  deriving DecidableEq, Repr

/-- The code of a command (R53). -/
def codeOf : GtCommand → Byte
  | .read => 0x00#8
  | .diffval => 0x01#8
  | .softreset => 0x02#8
  | .baseupdate => 0x03#8
  | .calibrate => 0x04#8
  | .screenOff => 0x05#8

/-- COORD_STATUS bit 7, "data ready" (R52). -/
def statusReady (s : Byte) : Bool :=
  s.getLsbD 7

/-- COORD_STATUS bits 3:0, the point count, 0 to 15 as a field (R52, R129). -/
def statusCount (s : Byte) : Nat :=
  (s.extractLsb' 0 4).toNat

/-! ## The bus (R49, R50, R63) -/

/-- One call of the bus primitives of R63. -/
inductive BusCall where
  | write (peripheral : Byte) (bytes : List Byte)
  | readInto (peripheral : Byte) (count : Nat)
  deriving DecidableEq, Repr

/-- The address bytes of a transaction: high byte, low byte (R45). -/
def addressBytes (addr : Half) : List Byte :=
  [(bigEndianBytes addr).1, (bigEndianBytes addr).2]

/-- A register write: one call, the address bytes followed by the data bytes of consecutive registers (R49, R51). -/
def writeRegisters (addr : Half) (data : List Byte) : List BusCall :=
  [.write Config.i2cAddr (addressBytes addr ++ data)]

/-- A register read: the address bytes alone, then the read, with no other transaction between (R50, R59). -/
def readRegisters (addr : Half) (count : Nat) : List BusCall :=
  [.write Config.i2cAddr (addressBytes addr), .readInto Config.i2cAddr count]

/-- The command write, three bytes (R49, R53). -/
def sendCommand (c : GtCommand) : List BusCall :=
  writeRegisters (addressOf .command) [codeOf c]

/-- The acknowledgment: 0x00 to COORD_STATUS (R49, R52). -/
def acknowledge : List BusCall :=
  writeRegisters (addressOf .coordStatus) [0x00#8]

/-! ## The configuration blob (R44, R113) -/

/-- A panel dimension the host accepts: 0 to 4095 (R161 (c)). -/
def validDimension (d : Half) : Bool :=
  decide (d.toNat < 4096)

/-- The 184 payload bytes: the fixed template, which the source does not list and which is an argument here (93 U18),
with the width at offsets 3 and 4 and the height at 5 and 6, low byte first (R44). -/
def payload (template : Vector Byte 184) (width height : Half) : Vector Byte 184 :=
  (((template.set 3 (littleEndianBytes width).1).set 4 (littleEndianBytes width).2).set 5
    (littleEndianBytes height).1).set 6 (littleEndianBytes height).2

/-- The sum of bytes modulo 256. -/
def sumBytes (bs : List Byte) : Byte :=
  bs.foldl checksumAdd 0x00#8

/-- The whole blob: payload, checksum byte, refresh flag fixed at 1 (R44, R113). -/
def blobOf (p : Vector Byte 184) : List Byte :=
  p.toList ++ [checksumOf (sumBytes p.toList), 0x01#8]

/-! ## The host's protocol (R181, R183) -/

/-- One thing the host does: a bus call, or a command presented to the block. -/
inductive HostAct where
  | bus (c : BusCall)
  | present (i : Instr)
  deriving DecidableEq, Repr

/-- The six bytes read from a point block (R43). -/
structure PointBlock where
  w0 : Byte
  w1 : Byte
  w2 : Byte
  w3 : Byte
  w4 : Byte
  w5 : Byte
  deriving DecidableEq, Repr

/-- The touch point of a block (R43, R95). -/
def PointBlock.point (b : PointBlock) : Half × Half :=
  (fromLittleEndian b.w0 b.w1, fromLittleEndian b.w2 b.w3)

/-- Read registers, with the block encoding the address first. -/
def readActs (addr : Half) (count : Nat) : List HostAct :=
  .present (.enca addr) :: (readRegisters addr count).map .bus

/-- The instructions among the host's acts, in order: what reaches the block. -/
def instructionsOf (acts : List HostAct) : List Instr :=
  acts.filterMap fun
    | .present i => some i
    | .bus _ => none

/-- The bus calls among the host's acts, in order: what reaches the bus. -/
def busCallsOf (acts : List HostAct) : List BusCall :=
  acts.filterMap fun
    | .present _ => none
    | .bus c => some c

/-- What the host still does when bus call number `k` (from 0) fails: everything up to that call and nothing after it. -/
def cutAtBusCall : Nat → List HostAct → List HostAct
  | _, [] => []
  | k, .present i :: rest => .present i :: cutAtBusCall k rest
  | 0, .bus c :: _ => [.bus c]
  | k + 1, .bus c :: rest => .bus c :: cutAtBusCall k rest

/-- What the host does of `acts` in a run of them in which bus call number `k` fails, or none does. Whether a bus call
fails is a free choice at every call (93 U17); nothing is retried (R161 (a)), so at most the first failure counts. -/
def attempted (failing : Option Nat) (acts : List HostAct) : List HostAct :=
  match failing with
  | none => acts
  | some k => cutAtBusCall k acts

/-- A bus call of `acts` fails. A number beyond the last call names no call, and none fails. -/
def busFails (failing : Option Nat) (acts : List HostAct) : Bool :=
  match failing with
  | none => false
  | some k => decide (k < (busCallsOf acts).length)

/-! ## One poll (R183) -/

/-- What the host does for point block `i`: read it, decode it, push the point. -/
def pointActs (i : Nat) (b : PointBlock) : List HostAct :=
  readActs (pointAddr i) Config.ptRead ++
    [.present (.decp b.w0 b.w1 b.w2 b.w3 b.w4 b.w5), .present (.agpush b.point.1 b.point.2)]

/-- A poll all of whose bus calls complete, given the status byte the first read returns and what a read of each block
returns: exactly as many blocks are read as the status byte counts, from block 0 up. The status is acknowledged after the
points are read, never before, and not at all when bit 7 is clear (R182). -/
def pollActs (status : Byte) (blocks : Nat → PointBlock) : List HostAct :=
  readActs (addressOf .coordStatus) 1 ++
    if statusReady status then
      if statusCount status = 0 then acknowledge.map .bus
      else
        .present .agclr :: ((List.range (statusCount status)).flatMap fun i => pointActs i (blocks i)) ++
          .present .agmean :: acknowledge.map .bus
    else []

/-- The result of one poll (R183, R161 (d)). -/
inductive PollResult where
  | noTouch
  | touch (x y : Half)
  /-- The error a poll returns when a bus call fails: "unknown state, try again next tick", never "no touch". -/
  | busFailed
  deriving DecidableEq, Repr

/-- The result of a poll none of whose bus calls failed, from the status byte and the AGMEAN response. -/
def pollReport (status : Byte) (meanResponse : Word) : PollResult :=
  if statusReady status && statusCount status != 0 then
    .touch (meanResponse.extractLsb' 0 16) (meanResponse.extractLsb' 16 16)
  else .noTouch

/-- The result of a poll: the error where any of its bus calls fails (R183, "never `Ok(None)`"), whichever it is. -/
def pollResult (failing : Option Nat) (status : Byte) (blocks : Nat → PointBlock) (meanResponse : Word) : PollResult :=
  if busFails failing (pollActs status blocks) then .busFailed else pollReport status meanResponse

/-- A poll: what the host does, and what it returns. -/
structure Poll where
  acts : List HostAct
  result : PollResult
  deriving DecidableEq, Repr

/-- One poll, given which of its bus calls fails, what its reads return, and what the block answers to its AGMEAN. After
a failed call the host skips the remaining steps, the status clear among them (R183). The next poll that aggregates
begins its aggregation with AGCLR whatever this one left in the block (R178). -/
def poll (failing : Option Nat) (status : Byte) (blocks : Nat → PointBlock) (meanResponse : Word) : Poll where
  acts := attempted failing (pollActs status blocks)
  result := pollResult failing status blocks meanResponse

/-! ## Initialisation (R181) -/

/-- How one of the two diagnostic reads of step 1 ends: with the bytes it returns, or with a failed bus call, call 0 being
the address write and call 1 the read. -/
inductive ReadOutcome (α : Type) where
  | returned (bytes : α)
  | failed (call : Fin 2)
  deriving DecidableEq, Repr

/-- The read failed. -/
def ReadOutcome.isFailed {α : Type} : ReadOutcome α → Bool
  | .returned _ => false
  | .failed _ => true

/-- One diagnostic read: the register is read and its bytes are presented to the block, or the read fails and there is
nothing to present. Either way the host goes on ("Failure here is non-fatal", R181 step 1; R161 (e)). -/
def queryActs {α : Type} (r : Reg) (decodeBytes : α → Instr) (outcome : ReadOutcome α) : List HostAct :=
  match outcome with
  | .returned bytes => readActs (addressOf r) (widthOf r) ++ [.present (decodeBytes bytes)]
  | .failed call => cutAtBusCall call (readActs (addressOf r) (widthOf r))

/-- The four identifier bytes or the two version bytes, in the order they are read. -/
abbrev IdBytes := Byte × Byte × Byte × Byte

/-- Step 1: the product identifier, then the firmware version. That the version is still queried after a failed
identifier read is the model's reading of "non-fatal" (notes/assumptions/9.md). -/
def identifyActs (id : ReadOutcome IdBytes) (version : ReadOutcome (Byte × Byte)) : List HostAct :=
  queryActs .productId (fun b => .rev4 b.1 b.2.1 b.2.2.1 b.2.2.2) id ++
    queryActs .fwVersion (fun b => .decl b.1 b.2) version

/-- Steps 2 to 4: build the blob, write it, issue READ. -/
def uploadActs (template : Vector Byte 184) (width height : Half) : List HostAct :=
  let p := payload template width height
  [.present (.encl width), .present (.encl height)] ++ (cksum p.toList).map .present ++
    .present (.enca (addressOf .config)) :: (writeRegisters (addressOf .config) (blobOf p)).map .bus ++
    .present (.enca (addressOf .command)) :: (sendCommand .read).map .bus

/-- The result of initialisation (R181, R161). -/
inductive InitResult where
  /-- A dimension above 4095 (R161 (c)). -/
  | invalidConfiguration
  /-- A bus call of steps 2 to 4 failed (R161 (a)). -/
  | busFailed
  /-- All steps done; in step 1 only the failures R181 calls non-fatal. -/
  | ready
  deriving DecidableEq, Repr

/-- An initialisation: what the host does, the warning it surfaces, and what it returns. -/
structure Initialization where
  acts : List HostAct
  /-- The product identifier could not be read (R161 (e)). -/
  idWarning : Bool
  result : InitResult
  deriving DecidableEq, Repr

/-- The host's initialisation: dimensions are validated before any bus traffic (R161 (c)); step 1's reads may fail and the host goes
on; `failing` is the number of the bus call of steps 2 to 4 that fails, if one does. Nothing is retried (R181). -/
def initialization (id : ReadOutcome IdBytes) (version : ReadOutcome (Byte × Byte)) (template : Vector Byte 184)
    (width height : Half) (failing : Option Nat) : Initialization :=
  if validDimension width && validDimension height then
    { acts := identifyActs id version ++ attempted failing (uploadActs template width height)
      idWarning := id.isFailed
      result := if busFails failing (uploadActs template width height) then .busFailed else .ready }
  else { acts := [], idWarning := false, result := .invalidConfiguration }

end Sys2Proof.Gt911
end

