-- ==== Sys2Proof/Tests/Slice0.lean ====
section
/-! SUPPORT. Small tests, their expected results taken from spec/ (the vector or rule is named at each), and the witnesses of
the statements' hypotheses. -/

namespace Sys2Proof.Tests

open Sys2Proof Sys2Proof.Machine Sys2Proof.Safety Sys2Proof.Claims

/-- The state a result answers. -/
def nextOf : Result → Option State
  | .next s => some s
  | .fault _ => none
  | .refused _ => none

/-- A state with these registers, the port open and this word presented. -/
def stateWith (ckAcc ckCnt : Byte) (agSx agSy : Sum) (agN status : Nibble) (w : Word) : State :=
  { State.reset with
    ckAcc := ckAcc, ckCnt := ckCnt, agSx := agSx, agSy := agSy, agN := agN, status := status, input := [.command w] }

/-- The reset state with this word presented. -/
def presenting (w : Word) : State :=
  { State.reset with input := [.command w] }

/-- The responses after one step. -/
def responses (s : State) : Option (List Word) :=
  (nextOf (step s)).map (·.output)

/-- The six registers after one step. -/
def registers (s : State) : Option (Byte × Byte × Sum × Sum × Nibble × Nibble) :=
  (nextOf (step s)).map fun t => (t.ckAcc, t.ckCnt, t.agSx, t.agSy, t.agN, t.status)

/-- `STATUS` after one step. -/
def statusAfter (s : State) : Option Nibble :=
  (nextOf (step s)).map (·.status)

/-- A state with the reset input asserted and this event next. -/
def heldInReset (e : HostEvent) : State :=
  { State.reset with ckAcc := 7#8, inReset := true, input := [e] }

/-! ## Well-formed lines (R82, R73): one ill-formed line for each check -/

theorem test_line_accepted : (AsmLine.op .enca [0x8150]).wellFormed = true := by decide

theorem test_line_too_few_operands : (AsmLine.op .decl [0x34]).arityOk = false := by decide

theorem test_line_too_many_operands : (AsmLine.op .nop [0]).wellFormed = false := by decide

theorem test_line_half_out_of_range : (AsmLine.op .encl [65536]).rangeOk = false := by decide

theorem test_line_byte_out_of_range : (AsmLine.op .ckpush [256]).wellFormed = false := by decide

theorem test_line_word_out_of_range : (AsmLine.word (2 ^ 64)).wellFormed = false := by decide

/-- R82's example `DECP 0x34, 0x01, 0x78, 0x02, 0, 0` and its word V45. -/
theorem test_assemble_decp :
    assemble (.op .decp [0x34, 0x01, 0x78, 0x02, 0, 0]) = some 0x1400000002780134#64 := by decide

/-! ## Decoding: words written out from R71 and R76 (the vectors' command words) -/

theorem test_decode_nop : decodeTableWord 64 0x0000000000000000 = some .nop := by decide

theorem test_decode_rst : decodeTableWord 64 0x0100000000000000 = some .rst := by decide

theorem test_decode_rdst : decodeTableWord 64 0x0200000000000000 = some .rdst := by decide

/-- V8. -/
theorem test_decode_enca : decodeTableWord 64 0x1000000000008150 = some (.enca 0x8150#16) := by decide

/-- V30. -/
theorem test_decode_decl : decodeTableWord 64 0x1100000000000134 = some (.decl 0x34#8 0x01#8) := by decide

/-- V36. -/
theorem test_decode_encl : decodeTableWord 64 0x12000000000001E0 = some (.encl 480#16) := by decide

/-- V41. -/
theorem test_decode_rev4 :
    decodeTableWord 64 0x1300000044434241 = some (.rev4 0x41#8 0x42#8 0x43#8 0x44#8) := by decide

/-- V47. -/
theorem test_decode_decp :
    decodeTableWord 64 0x140055AA0000FFFF = some (.decp 0xFF#8 0xFF#8 0x00#8 0x00#8 0xAA#8 0x55#8) := by decide

theorem test_decode_ckclr : decodeTableWord 64 0x2000000000000000 = some .ckclr := by decide

theorem test_decode_ckpush : decodeTableWord 64 0x21000000000000E0 = some (.ckpush 0xE0#8) := by decide

theorem test_decode_ckget : decodeTableWord 64 0x2200000000000000 = some .ckget := by decide

theorem test_decode_agclr : decodeTableWord 64 0x3000000000000000 = some .agclr := by decide

theorem test_decode_agpush : decodeTableWord 64 0x3100000000680066 = some (.agpush 102#16 104#16) := by decide

theorem test_decode_agmean : decodeTableWord 64 0x3200000000000000 = some .agmean := by decide

/-- V75: 0x15 is just past DECP. -/
theorem test_decode_past_decp : decodeTableWord 64 0x1500000000000000 = none := by decide

/-- V81: DECP has no reserved operand bit but bits 55:48 are reserved. -/
theorem test_decode_decp_rsv : decodeTableWord 64 0x14FF000000000000 = none := by decide

/-! ## One step per instruction -/

/-- V71. -/
theorem test_rdst : responses (stateWith 0 0 0 0 0 0x9#4 0x0200000000000000#64) = some [0x9#64] := by decide

/-- V72. -/
theorem test_rst :
    registers (stateWith 0x3C#8 255#8 7#20 8#20 5#4 0xD#4 0x0100000000000000#64) = some (0, 0, 0, 0, 0, 0) := by decide

/-- V70. -/
theorem test_nop : registers (stateWith 1 2 3 4 5 6 0#64) = some (1, 2, 3, 4, 5, 6) := by decide

/-- V22, the asymmetric value. -/
theorem test_enca : responses (presenting 0x1000000000001234#64) = some [0x3412#64] := by decide

/-- V4. -/
theorem test_enca_fresh : responses (presenting 0x1000000000008100#64) = some [0x0081#64] := by decide

/-- V32: no sign. -/
theorem test_decl : responses (presenting 0x1100000000008000#64) = some [0x8000#64] := by decide

/-- V40. -/
theorem test_encl : responses (presenting 0x1200000000001000#64) = some [0x1000#64] := by decide

/-- V41. -/
theorem test_rev4 : responses (presenting 0x1300000044434241#64) = some [0x41424344#64] := by decide

/-- V46: the ignored bytes do not leak. -/
theorem test_decp_tail : responses (presenting 0x1400FFFF00000000#64) = some [0#64] := by decide

/-- V48: no 12-bit masking. -/
theorem test_decp : responses (presenting 0x140000070FFF1000#64) = some [0x0FFF1000#64] := by decide

/-- R110's example. -/
theorem test_ckclr :
    registers (stateWith 0xF2#8 184#8 1 2 3 4 0x2000000000000000#64) = some (0, 0, 1, 2, 3, 4) := by decide

/-- R111: 0xFF plus 0x01 wraps, no flag. -/
theorem test_ckpush_wraps :
    registers (stateWith 0xFF#8 5#8 0 0 0 0 0x2100000000000001#64) = some (0, 6, 0, 0, 0, 0) := by decide

/-- R111: the count stays at 255. -/
theorem test_ckpush_saturates :
    registers (stateWith 0xE1#8 255#8 0 0 0 0 0x2100000000000010#64) = some (0xF1, 255, 0, 0, 0, 0) := by decide

/-- R112's example. -/
theorem test_ckget : responses (stateWith 0xF2#8 184#8 0 0 0 0 0x2200000000000000#64) = some [0xB80E#64] := by decide

/-- V24: the zero-sum corner (C3). -/
theorem test_ckget_zero : responses (stateWith 0 184#8 0 0 0 0 0x2200000000000000#64) = some [0xB800#64] := by decide

/-- R125's example; STATUS is kept. -/
theorem test_agclr :
    registers (stateWith 9 8 300#20 300#20 3#4 0xC#4 0x3000000000000000#64) = some (9, 8, 0, 0, 0, 0xC) := by decide

/-- P6: the fifteenth push of the largest point. -/
theorem test_agpush_largest :
    registers (stateWith 0 0 917490#20 917490#20 14#4 0 0x31000000FFFFFFFF#64) =
      some (0, 0, 983025, 983025, 15, 0) := by decide

/-- V69. -/
theorem test_agpush_full :
    nextOf (step (stateWith 0 0 983025#20 983025#20 15#4 0 0x3100000000010001#64)) =
      some { stateWith 0 0 983025#20 983025#20 15#4 4 0 with input := [], output := [0x0300000000000000#64] } := by
  decide

/-- V63: remainders dropped. -/
theorem test_agmean :
    responses (stateWith 0 0 32#20 1#20 3#4 0 0x3200000000000000#64) = some [0x000000030000000A#64] := by decide

/-- V68. -/
theorem test_agmean_empty :
    nextOf (step (stateWith 0 0 0 0 0 0 0x3200000000000000#64)) =
      some { stateWith 0 0 0 0 0 8 0 with input := [], output := [0x0400000000000000#64] } := by decide

/-! ## Decode errors, reset, the port -/

/-- V74. -/
theorem test_illop : responses (presenting 0xFF00000000000001#64) = some [0x0100000000000000#64] := by decide

/-- V76: nothing added, nothing counted. -/
theorem test_rsvd :
    registers (stateWith 0x3C#8 7#8 0 0 0 0 0x2100000000000134#64) = some (0x3C, 7, 0, 0, 0, 2) := by decide

/-- V80: E_RSVD wins over E_AGFULL. -/
theorem test_priority :
    registers (stateWith 0 0 0 0 15#4 4 0x3100000100000000#64) = some (0, 0, 0, 0, 15, 6) := by decide

/-- R175: a command presented while reset is asserted is lost. -/
theorem test_command_in_reset : responses (heldInReset (.command 0x2200000000000000#64)) = some [] := by decide

/-- R175: on release the registers are zero. -/
theorem test_release : registers (heldInReset (.resetLine false)) = some (0, 0, 0, 0, 0, 0) := by decide

/-- R184. -/
theorem test_concurrent : nextOf (step { State.reset with input := [.concurrent 0 0] }) = none := by decide

/-- The word placed by `withFetchWord` is what the next step runs. -/
theorem test_fetch_word :
    responses (State.reset.withFetchWord 64 0x1000000000008150) = some [0x0000000000005081#64] := by decide

/-! ## Pseudo-instructions and context -/

/-- R83: bits 31:0 of V48's response, presented as an AGPUSH. -/
theorem test_point_push : pointPush 0x000000000FFF1000#64 = .agpush 4096#16 4095#16 := by decide

/-- S9: `send_command(CALIBRATE)` writes exactly three bytes. -/
theorem test_send_calibrate :
    Gt911.sendCommand .calibrate = [.write 0x5D#8 [0x80#8, 0x40#8, 0x04#8]] := by decide

/-- R43: the start of point block 4, and R42: its Y field. -/
theorem test_point_four : Gt911.addressOf (.pointX 4) = 0x8170#16 ∧ Gt911.addressOf (.pointY 4) = 0x8172#16 := by decide

/-- A block read of these four bytes. -/
def blockOf (w0 w1 w2 w3 : Byte) : Gt911.PointBlock :=
  { w0 := w0, w1 := w1, w2 := w2, w3 := w3, w4 := 0, w5 := 0 }

/-- S6: status 0x00 gives one read of the status and no clear write. -/
theorem test_poll_not_ready : Gt911.busCallsOf (Gt911.pollActs 0x00#8 fun _ => blockOf 0 0 0 0) =
    [.write 0x5D#8 [0x81#8, 0x4E#8], .readInto 0x5D#8 1] := by decide

/-- S7: status 0x80 gives exactly one status-clear write afterward. -/
theorem test_poll_no_points : Gt911.busCallsOf (Gt911.pollActs 0x80#8 fun _ => blockOf 0 0 0 0) =
    [.write 0x5D#8 [0x81#8, 0x4E#8], .readInto 0x5D#8 1, .write 0x5D#8 [0x81#8, 0x4E#8, 0x00#8]] := by decide

/-- P2's poll, cut to its first point: what reaches the block. -/
theorem test_poll_instructions :
    Gt911.instructionsOf (Gt911.pollActs 0x81#8 fun _ => blockOf 0x64#8 0 0x64#8 0) =
      [.enca 0x814E#16, .agclr, .enca 0x8150#16, .decp 0x64#8 0 0x64#8 0 0 0, .agpush 100#16 100#16, .agmean] := by
  decide

/-- P2's result: three points, no failure, the touch sample (100, 100). -/
theorem test_poll_touch : (Gt911.poll none 0x83#8 (fun _ => blockOf 0 0 0 0) 0x0000000300640064#64).result =
    .touch 100#16 100#16 := by decide

/-- S8, R183: the first point's read (bus call 3) fails: an error, nothing pushed, the status not cleared. -/
theorem test_poll_bus_failure :
    (Gt911.poll (some 3) 0x81#8 (fun _ => blockOf 0x64#8 0 0x64#8 0) 0).result = .busFailed ∧
    Gt911.instructionsOf (Gt911.poll (some 3) 0x81#8 (fun _ => blockOf 0x64#8 0 0x64#8 0) 0).acts =
      [.enca 0x814E#16, .agclr, .enca 0x8150#16] := by decide

/-- R181 step 1: the read of the identifier fails, and the firmware version is queried all the same. -/
theorem test_identify_failure :
    Gt911.identifyActs (.failed 1) (.returned (0x60#8, 0x10#8)) =
      [.present (.enca 0x8140#16), .bus (.write 0x5D#8 [0x81#8, 0x40#8]), .bus (.readInto 0x5D#8 4),
        .present (.enca 0x8144#16), .bus (.write 0x5D#8 [0x81#8, 0x44#8]), .bus (.readInto 0x5D#8 2),
        .present (.decl 0x60#8 0x10#8)] := by decide

/-- R161 (e): the failure is a warning, and steps 2 to 4 follow. -/
theorem test_identify_failure_is_not_fatal (template : Vector Byte 184) :
    Gt911.initialization (.failed 1) (.failed 0) template 480#16 272#16 none =
      { acts := Gt911.identifyActs (.failed 1) (.failed 0) ++ Gt911.uploadActs template 480#16 272#16,
        idWarning := true, result := .ready } := by rfl

/-- R161 (c): 4096 is refused before any bus traffic. -/
theorem test_dimension_refused :
    (Gt911.initialization (.failed 1) (.failed 0) (Vector.replicate 184 0#8) 4096#16 272#16 none).result =
      .invalidConfiguration := by decide

/-! ## Witnesses: for each statement with hypotheses, a state and operands that meet them together -/

theorem witness_ResetLeavesEveryRegisterZero :
    (heldInReset (.resetLine false)).inReset = true ∧
    (heldInReset (.resetLine false)).input = .resetLine false :: [] ∧
    (stateWith 1 2 3 4 5 0 0).status = 0 := by decide

theorem witness_HardwareResetLosesCommandsAndZeroes :
    ({ stateWith 1 2 3 4 5 6 0 with input := [.resetLine true] } : State).input = .resetLine true :: [] ∧
    (heldInReset (.command 0)).inReset = true ∧ (heldInReset (.command 0)).input = .command 0 :: [] ∧
    (heldInReset (.resetLine false)).inReset = true ∧
    (heldInReset (.resetLine false)).input = .resetLine false :: [] := by decide

theorem witness_StepRunsTheDecodedInstruction :
    Presented (presenting 0x3200000000000000#64) 0x3200000000000000#64 [] ∧
    decode 0x3200000000000000#64 = .ok .agmean := ⟨by decide, by rfl⟩

theorem witness_EveryCommandAnsweredOnceFromStateAndWord :
    Presented (stateWith 1 2 3 4 5 6 9) 9 [] ∧
    Presented { stateWith 1 2 3 4 5 6 9 with input := [.command 9, .command 8], output := [7] } 9 [.command 8] ∧
    SameRegisters (stateWith 1 2 3 4 5 6 9)
      { stateWith 1 2 3 4 5 6 9 with input := [.command 9, .command 8], output := [7] } := by decide

theorem witness_NothingPresentedNothingChanges : State.reset.input = [] := by decide

theorem witness_TwoHostsAtOnceAreRefused :
    ({ State.reset with input := [.concurrent 1 2] } : State).input = .concurrent 1 2 :: [] := by decide

theorem witness_EncodeOfDecodeIsTheWord :
    decode 0x31000000FFFFFFFF#64 = .ok (.agpush 0xFFFF#16 0xFFFF#16) := by rfl

/-- A row with a word that fits it and one that does not, and the last word of a format that uses all operand bits. -/
theorem witness_LegalWordsAreThoseOfTheOpcodeMap :
    (Op.ckpush, 0x21, 0x2100000000000000#64, 0xFFFFFFFFFFFFFF00#64, 8) ∈ rows ∧
    0x21000000000000FF#64 &&& 0xFFFFFFFFFFFFFF00#64 = 0x2100000000000000#64 ∧
    0x2100000000000100#64 &&& 0xFFFFFFFFFFFFFF00#64 ≠ 0x2100000000000000#64 ∧
    0x1400FFFFFFFFFFFF#64 &&& 0xFFFF000000000000#64 = 0x1400000000000000#64 := by decide

/-- A well-formed line at the top of its range, and lines just outside it. -/
theorem witness_AssemblyLinesGiveTheirInstruction :
    (AsmLine.op .agpush [65535, 65535]).wellFormed = true ∧ (AsmLine.op .agpush [65535, 65536]).wellFormed = false ∧
    (AsmLine.op .agpush [65535]).wellFormed = false ∧
    2 ^ 64 - 1 < 2 ^ 64 ∧ assemble (.word (2 ^ 64 - 1)) = some 0xFFFFFFFFFFFFFFFF#64 ∧
    2 ^ 64 ≤ 2 ^ 64 ∧ assemble (.word (2 ^ 64)) = none := by decide

/-- The opcodes just outside each group of the map. -/
theorem witness_UnknownOpcodeAnswersIllop :
    Presented (presenting 0x0300000000000000#64) 0x0300000000000000#64 [] ∧
    (0x0300000000000000#64).toNat / 2 ^ 56 ∉ opcodes ∧ (0x0F00000000000000#64).toNat / 2 ^ 56 ∉ opcodes ∧
    (0x1500000000000000#64).toNat / 2 ^ 56 ∉ opcodes ∧ (0x33FFFFFFFFFFFFFF#64).toNat / 2 ^ 56 ∉ opcodes ∧
    (0xFF00000000000001#64).toNat / 2 ^ 56 ∉ opcodes := by decide

/-- The lowest reserved operand bit of CKPUSH, the highest bit of the reserved byte, and the word just below the first. -/
theorem witness_ReservedBitAnswersRsvd :
    (Op.ckpush, 0x21, 0x2100000000000000#64, 0xFFFFFFFFFFFFFF00#64, 8) ∈ rows ∧
    (0x2100000000000100#64).toNat / 2 ^ 56 = 0x21 ∧ (0x2100000000000100#64).toNat % 2 ^ 48 / 2 ^ 8 ≠ 0 ∧
    (0x2180000000000000#64).toNat / 2 ^ 48 % 256 ≠ 0 ∧ (0x21000000000000FF#64).toNat % 2 ^ 48 / 2 ^ 8 = 0 ∧
    Presented (presenting 0x2100000000000100#64) 0x2100000000000100#64 [] ∧
    0x2100000000000100#64 &&& 0xFFFFFFFFFFFFFF00#64 ≠ 0x2100000000000000#64 := by decide

theorem witness_DecodeErrorsComeBeforeTheOwnError :
    (Presented (stateWith 0 0 0 0 15#4 4 0x3100000100000000#64) 0x3100000100000000#64 [] ∧
      reservedBitSet 0x3100000100000000#64 ∧ (0x3100000100000000#64).toNat / 2 ^ 56 = 0x31) ∧
    (Presented (stateWith 0 0 0 0 0#4 0 0x3200000000000001#64) 0x3200000000000001#64 [] ∧
      reservedBitSet 0x3200000000000001#64 ∧ (0x3200000000000001#64).toNat / 2 ^ 56 = 0x32) :=
  ⟨⟨by decide, ⟨(.agpush, 0x31, 0x3100000000000000#64, 0xFFFFFFFF00000000#64, 32), by decide, by decide,
      .inr (by decide)⟩, by decide⟩,
    ⟨by decide, ⟨(.agmean, 0x32, 0x3200000000000000#64, 0xFFFFFFFFFFFFFFFF#64, 0), by decide, by decide,
      .inr (by decide)⟩, by decide⟩⟩

/-- A presented word whose response is an error, and one whose response is OK. -/
theorem witness_ErrorsWriteOnlyTheirStickyBit :
    Presented (stateWith 0 0 0 0 0 0 0x3200000000000000#64) 0x3200000000000000#64 [] ∧
    responses (stateWith 0 0 0 0 0 0 0x3200000000000000#64) = some [0x0400000000000000#64] ∧
    responseStatus 0x0400000000000000#64 ≠ 0 := by decide

theorem witness_ResponseWordsHaveTheCommonLayout :
    Presented (presenting 0x1000000000008150#64) 0x1000000000008150#64 [] ∧
    responseStatus 0x0300000000000000#64 ≠ 0 := by decide

/-- All four flags set, then the RST word, a word of each error, and a successful one. -/
theorem witness_FlagsAreStickyAndSetOnlyByTheirError :
    Presented (stateWith 0 0 0 0 0 15 0x0100000000000000#64) 0x0100000000000000#64 [] ∧
    statusAfter (stateWith 0 0 0 0 0 15 0x0100000000000000#64) = some 0 ∧
    statusAfter (stateWith 0 0 0 0 0 14 0x0300000000000000#64) = some 15 ∧
    statusAfter (stateWith 0 0 0 0 0 13 0x0000000000000001#64) = some 15 ∧
    statusAfter (stateWith 0 0 0 0 15 11 0x3100000000000000#64) = some 15 ∧
    statusAfter (stateWith 0 0 0 0 0 7 0x3200000000000000#64) = some 15 ∧
    statusAfter (stateWith 0 0 0 0 0 9 0x0000000000000000#64) = some 9 := by decide

theorem witness_FlagsChangeNoBehaviour :
    Presented (stateWith 0 0 5 6 1 0xB#4 0x3200000000000000#64) 0x3200000000000000#64 [] ∧
    0x3200000000000000#64 ≠ 0x0200000000000000#64 := by decide

/-- A sequence whose run ends with STATUS zero, and one whose run does not. -/
theorem witness_ZeroStatusAtTheEndMeansNoError :
    (presenting 0x2200000000000000#64).inReset = false ∧
    (presenting 0x2200000000000000#64).input = [0x2200000000000000#64].map .command ++ [] ∧
    0x0100000000000000#64 ∉ [0x2200000000000000#64] ∧
    (nextOf (Host.Core.run Sys2Proof.core 1 (presenting 0x2200000000000000#64))).map (·.status) = some 0 ∧
    (nextOf (Host.Core.run Sys2Proof.core 1 (presenting 0x0300000000000000#64))).map (·.status) = some 1 := by decide

theorem witness_EachInstructionWritesOnlyItsRegisters :
    (Instr.ckget.op ≠ .rst ∧ Instr.ckget.op ≠ .ckclr ∧ Instr.ckget.op ≠ .ckpush) ∧
    (Instr.agmean.op ≠ .rst ∧ Instr.agmean.op ≠ .agclr ∧ Instr.agmean.op ≠ .agpush) ∧
    ((Instr.ckpush 1).op ≠ .rst ∧ (Instr.ckpush 1).op ≠ .agpush ∧ (Instr.ckpush 1).op ≠ .agmean) := by decide

theorem witness_CodecIsStatelessAndTotal :
    (Instr.rev4 1 2 3 4).op ∈ [Op.enca, Op.decl, Op.encl, Op.rev4, Op.decp] := by decide

theorem witness_ChecksumUnitIsIndependent :
    (Instr.ckpush 1).op ∈ [Op.ckclr, Op.ckpush, Op.ckget] ∧
    SameChecksum (stateWith 1 2 3 4 5 6 0) (stateWith 1 2 0 0 0 0 0) := by decide

theorem witness_AggregatorUnitIsIndependent :
    (Instr.agpush 1 2).op ∈ [Op.agclr, Op.agpush, Op.agmean] ∧
    SameAggregator (stateWith 1 2 3 4 5 6 0) (stateWith 0 0 3 4 5 0 0) := by decide

/-- A state at the bound itself, and its step. -/
theorem witness_EveryStepKeepsTheSumBound :
    AggBound (stateWith 0 0 917490#20 917490#20 14#4 0 0x31000000FFFFFFFF#64) ∧
    (nextOf (step (stateWith 0 0 917490#20 917490#20 14#4 0 0x31000000FFFFFFFF#64))).isSome = true := by decide

/-- Each clause at its boundary: 15 points, and 14 points at the bound. -/
theorem witness_AgpushAddsOnePointOrAnswersFull :
    (stateWith 0 0 983025#20 983025#20 15#4 0 0).agN = 15#4 ∧
    (stateWith 0 0 917490#20 917490#20 14#4 0 0).agN ≠ 15#4 ∧
    AggBound (stateWith 0 0 917490#20 917490#20 14#4 0 0) := by decide

/-- Each clause at its boundary: no point, and one point at the bound. -/
theorem witness_AgmeanReturnsTheMeanOrAnswersEmpty :
    (stateWith 0 0 0 0 0 0 0).agN = 0#4 ∧ (stateWith 0 0 65535#20 65535#20 1#4 0 0).agN ≠ 0#4 ∧
    AggBound (stateWith 0 0 65535#20 65535#20 1#4 0 0) := by decide

theorem witness_ChecksumOfAnyPushedBytes :
    ({ stateWith 9 9 9 9 1 9 0 with input := present (cksum [0xE0#8, 0x01#8]) } : State).inReset = false ∧
    ({ stateWith 9 9 9 9 1 9 0 with input := present (cksum [0xE0#8, 0x01#8]) } : State).input =
      present (cksum [0xE0#8, 0x01#8]) ++ [] := by decide

/-- 184 bytes of zero have the checksum 0 (V24). -/
theorem witness_BlobInvariantIsVerifiedByCkvfy :
    (List.replicate 184 (0#8 : Byte)).length = 184 ∧
    ∃ s : State, s.inReset = false ∧
      s.input = present (cksum (List.replicate 184 0#8)) ++ present (ckvfy (List.replicate 184 0#8 ++ [0#8])) ++ [] ∧
      (0#8 : Byte) = responseLane 0x000000000000B800#64 0 :=
  ⟨List.length_replicate, ⟨{ State.reset with
    input := present (cksum (List.replicate 184 0#8)) ++ present (ckvfy (List.replicate 184 0#8 ++ [0#8])) ++ [] },
    rfl, rfl, by decide⟩⟩

/-- A push, AGCLR, a word with a reserved bit set, an unknown opcode, and the push of the largest byte. -/
theorem witness_ChecksumCountsExactlyThePushes :
    let ws : List Word := [0x2100000000000001#64, 0x3000000000000000#64, 0x2100000000000134#64, 0xFF00000000000001#64,
      0x21000000000000FF#64]
    ({ State.reset with input := ws.map .command } : State).inReset = false ∧
    ({ State.reset with input := ws.map .command } : State).input = ws.map .command ++ [] ∧
    0x0100000000000000#64 ∉ ws ∧ 0x2000000000000000#64 ∉ ws ∧
    ws.countP isCkpush = 2 ∧ (ws.map pushedByte).sum = 256 := by decide

theorem witness_ChecksumIgnoresTheOrderOfPushes :
    [1#8, 2#8].Perm [2#8, 1#8] ∧
    SameChecksum { stateWith 1 2 3 4 5 6 0 with input := present ([1#8, 2#8].map .ckpush) }
      { stateWith 1 2 0 0 0 0 0 with input := present ([2#8, 1#8].map .ckpush) } ∧
    ({ stateWith 1 2 3 4 5 6 0 with input := present ([1#8, 2#8].map .ckpush) } : State).inReset = false ∧
    ({ stateWith 1 2 0 0 0 0 0 with input := present ([2#8, 1#8].map .ckpush) } : State).inReset = false ∧
    ({ stateWith 1 2 3 4 5 6 0 with input := present ([1#8, 2#8].map .ckpush) } : State).input =
      present ([1#8, 2#8].map .ckpush) ++ [] ∧
    ({ stateWith 1 2 0 0 0 0 0 with input := present ([2#8, 1#8].map .ckpush) } : State).input =
      present ([2#8, 1#8].map .ckpush) ++ [] := by decide

/-- One point, and fifteen: the two ends of the range. -/
theorem witness_MeanOfAnyPushedPoints :
    ({ stateWith 1 2 3 4 5 6 0 with input := present (avg [(7#16, 9#16)]) } : State).inReset = false ∧
    ({ stateWith 1 2 3 4 5 6 0 with input := present (avg [(7#16, 9#16)]) } : State).input =
      present (avg [(7#16, 9#16)]) ++ [] ∧
    1 ≤ [(7#16, 9#16)].length ∧ [(7#16, 9#16)].length ≤ 15 ∧
    (List.replicate 15 ((65535#16, 65535#16) : Half × Half)).length ≤ 15 := by decide

theorem witness_MeanLiesBetweenThePushedValues :
    ({ State.reset with input := present (avg [(10#16, 0#16), (11#16, 0#16)]) } : State).inReset = false ∧
    ({ State.reset with input := present (avg [(10#16, 0#16), (11#16, 0#16)]) } : State).input =
      present (avg [(10#16, 0#16), (11#16, 0#16)]) ++ [] ∧
    (∀ p ∈ [((10#16, 0#16) : Half × Half), (11#16, 0#16)], 10 ≤ p.1.toNat ∧ p.1.toNat ≤ 11) ∧
    (∀ p ∈ [((10#16, 0#16) : Half × Half), (11#16, 0#16)], 0 ≤ p.2.toNat ∧ p.2.toNat ≤ 11) :=
  ⟨rfl, rfl, by simp, by simp⟩

/-- Fourteen points at the bound, a checksum push, an AGPUSH with a reserved bit set, and the fifteenth point. -/
theorem witness_AggregatorSumsExactlyThePushes :
    let ws : List Word := [0x2100000000000001#64, 0x3100000100000000#64, 0x31000000FFFFFFFE#64]
    let s : State := { stateWith 0 0 917490#20 917490#20 14#4 0 0 with input := ws.map .command }
    s.inReset = false ∧ AggBound s ∧ s.input = ws.map .command ++ [] ∧
    0x0100000000000000#64 ∉ ws ∧ 0x3000000000000000#64 ∉ ws ∧
    s.agN.toNat + ws.countP isAgpush ≤ 15 ∧
    ws.map pushedX = [0, 0, 65534] ∧ ws.map pushedY = [0, 0, 65535] := by decide

end Sys2Proof.Tests
end

/-! PROOFS. The answer to a command word: one response, and registers that depend on the registers and the word alone
(00_scope.md R11). -/

namespace Sys2Proof.Machine

open Sys2Proof.Safety

/-! ## The host's side of a state -/

/-- The same block before another host: its own input to come and its own record of responses. -/
def State.withHost (s : State) (input : List HostEvent) (output : List Word) : State :=
  { s with input := input, output := output }

@[simp] theorem State.withHost_inReset (s : State) (inp : List HostEvent) (out : List Word) :
    (s.withHost inp out).inReset = s.inReset := rfl
@[simp] theorem State.withHost_input (s : State) (inp : List HostEvent) (out : List Word) :
    (s.withHost inp out).input = inp := rfl
@[simp] theorem State.withHost_output (s : State) (inp : List HostEvent) (out : List Word) :
    (s.withHost inp out).output = out := rfl

theorem State.withInput_eq_withHost (s : State) (rest : List HostEvent) :
    { s with input := rest } = s.withHost rest s.output := rfl

theorem State.sameRegisters_withHost (s : State) (inp₁ inp₂ : List HostEvent) (out₁ out₂ : List Word) :
    SameRegisters (s.withHost inp₁ out₁) (s.withHost inp₂ out₂) :=
  ⟨⟨rfl, rfl⟩, ⟨rfl, rfl, rfl⟩, rfl⟩

/-- States with the same registers and the same reset level differ in the host's side only. -/
theorem State.withHost_eq_of_sameRegisters {s₁ s₂ : State} (h : SameRegisters s₁ s₂)
    (hr : s₁.inReset = s₂.inReset) (inp : List HostEvent) (out : List Word) :
    s₁.withHost inp out = s₂.withHost inp out := by
  obtain ⟨⟨hacc, hcnt⟩, ⟨hsx, hsy, hn⟩, hst⟩ := h
  simp only [State.withHost, hacc, hcnt, hsx, hsy, hn, hst, hr]

/-! ## Meanings that answer once and do not look at the host's side -/

/-- A meaning that, from every state, gives one response `r` and the registers of one `t`, whatever the host has been
answered and will present; it takes nothing more from the host and leaves the reset level. -/
def AnswersFromRegisters (f : State → Result) : Prop :=
  ∀ s : State, ∃ (t : State) (r : Word), t.inReset = s.inReset ∧
    ∀ (inp : List HostEvent) (out : List Word), f (s.withHost inp out) = .next (t.withHost inp (out ++ [r]))

theorem respond_answersFromRegisters (d : Lanes) : AnswersFromRegisters (respond d) :=
  fun s => ⟨s, responseWord 0x00#8 d, rfl, fun _ _ => rfl⟩

theorem raise_answersFromRegisters (e : ErrorKind) : AnswersFromRegisters (raise e) :=
  fun s => ⟨{ s with status := setSticky e s.status }, errorWord e, rfl, fun _ _ => rfl⟩

/-- AGPUSH reads the point count and nothing of the host's side, on both its paths. -/
theorem execAgpush_answersFromRegisters (x y : Half) : AnswersFromRegisters (execAgpush x y) := by
  intro s
  by_cases h : s.agN = 15#4
  · obtain ⟨t, r, hr, ht⟩ := raise_answersFromRegisters .agfull s
    exact ⟨t, r, hr, fun inp out => (execAgpush_full x y (s.withHost inp out) h).trans (ht inp out)⟩
  · exact ⟨{ s with agSx := sumAdd s.agSx x, agSy := sumAdd s.agSy y, agN := s.agN + 1#4 },
      responseWord 0x00#8 0#48, rfl, fun inp out => execAgpush_room x y (s.withHost inp out) h⟩

/-- AGMEAN reads the accumulators and nothing of the host's side, on both its paths. -/
theorem execAgmean_answersFromRegisters : AnswersFromRegisters execAgmean := by
  intro s
  by_cases h : s.agN = 0#4
  · obtain ⟨t, r, hr, ht⟩ := raise_answersFromRegisters .agempty s
    exact ⟨t, r, hr, fun inp out => (execAgmean_none (s.withHost inp out) h).trans (ht inp out)⟩
  · exact ⟨s, responseWord 0x00#8 (dataOfMean (meanOf s.agSx s.agN) (meanOf s.agSy s.agN) s.agN), rfl,
      fun inp out => execAgmean_some (s.withHost inp out) h⟩

theorem exec_answersFromRegisters (i : Instr) : AnswersFromRegisters (exec i) := by
  cases i with
  | nop => exact respond_answersFromRegisters _
  | rst => exact fun s => ⟨s.clearRegisters, responseWord 0x00#8 0#48, rfl, fun _ _ => rfl⟩
  | rdst => exact fun s => ⟨s, responseWord 0x00#8 (dataOfByte (statusByte s.status)), rfl, fun _ _ => rfl⟩
  | enca addr => exact respond_answersFromRegisters _
  | decl w0 w1 => exact respond_answersFromRegisters _
  | encl v => exact respond_answersFromRegisters _
  | rev4 w0 w1 w2 w3 => exact respond_answersFromRegisters _
  | decp w0 w1 w2 w3 w4 w5 => exact respond_answersFromRegisters _
  | ckclr => exact fun s => ⟨s.clearChecksum, responseWord 0x00#8 0#48, rfl, fun _ _ => rfl⟩
  | ckpush b =>
    exact fun s => ⟨{ s with ckAcc := checksumAdd s.ckAcc b, ckCnt := countUp s.ckCnt },
      responseWord 0x00#8 0#48, rfl, fun _ _ => rfl⟩
  | ckget =>
    exact fun s => ⟨s, responseWord 0x00#8 (dataOfChecksum (checksumOf s.ckAcc) s.ckCnt), rfl, fun _ _ => rfl⟩
  | agclr => exact fun s => ⟨s.clearAggregator, responseWord 0x00#8 0#48, rfl, fun _ _ => rfl⟩
  | agpush x y => exact execAgpush_answersFromRegisters x y
  | agmean => exact execAgmean_answersFromRegisters

/-- Every one of the 2^64 words is answered so: the decoder does not see the state, and both its outcomes are. -/
theorem execWord_answersFromRegisters (w : Word) : AnswersFromRegisters (execWord w) := by
  cases hd : decode w with
  | ok i => exact funext (execWord_ok hd) ▸ exec_answersFromRegisters i
  | error e => exact funext (execWord_error hd) ▸ raise_answersFromRegisters (decodeErrorKind e)

end Sys2Proof.Machine

namespace Sys2Proof.Proofs

open Sys2Proof.Machine Sys2Proof.Safety

/-- Settles O4: the two states are one block before two hosts, and no meaning looks at the host's side. -/
theorem everyCommandAnsweredOnceFromStateAndWord : Obligations.EveryCommandAnsweredOnceFromStateAndWord := by
  intro s₁ s₂ w rest₁ rest₂ ⟨hr₁, hi₁⟩ ⟨hr₂, hi₂⟩ hsame
  obtain ⟨t, r, hrt, hstep⟩ := execWord_answersFromRegisters w s₂
  have step₁ : step s₁ = .next (t.withHost rest₁ (s₁.output ++ [r])) := by
    rw [step_command hr₁ hi₁, State.withInput_eq_withHost,
      State.withHost_eq_of_sameRegisters hsame (hr₁.trans hr₂.symm), hstep]
  have step₂ : step s₂ = .next (t.withHost rest₂ (s₂.output ++ [r])) := by
    rw [step_command hr₂ hi₂, State.withInput_eq_withHost, hstep]
  refine ⟨_, _, r, step₁, step₂, ?_⟩
  simpa [hrt, hr₂] using t.sameRegisters_withHost rest₁ rest₂ (s₁.output ++ [r]) (s₂.output ++ [r])

end Sys2Proof.Proofs

/-! PROOFS. What an instruction does, said once: the error it raises, else the registers it leaves and the data it answers
(10_state.md R31, 60_exceptions.md R154). -/

namespace Sys2Proof.Machine

open Sys2Proof.Safety

/-! ## An instruction raises its own error or completes -/

/-- The instruction's own error where `n` points are held: AGPUSH's at 15 (R126), AGMEAN's at none (R127). -/
def ownError (i : Instr) (n : Nibble) : Option ErrorKind :=
  match i with
  | .agpush _ _ => if n = 15#4 then some .agfull else none
  | .agmean => if n = 0#4 then some .agempty else none
  | _ => none

/-- The state in which an instruction without an error answers: the "writes" column of R31. -/
def okState (i : Instr) (s : State) : State :=
  match i with
  | .rst => s.clearRegisters
  | .ckclr => s.clearChecksum
  | .ckpush b => { s with ckAcc := checksumAdd s.ckAcc b, ckCnt := countUp s.ckCnt }
  | .agclr => s.clearAggregator
  | .agpush x y => { s with agSx := sumAdd s.agSx x, agSy := sumAdd s.agSy y, agN := s.agN + 1#4 }
  | _ => s

/-- The data an instruction without an error answers: the "reads" column of R31, with the layouts of R81. -/
def okData (i : Instr) (s : State) : Lanes :=
  match i with
  | .rdst => dataOfByte (statusByte s.status)
  | .enca addr => dataOfBytes2 (bigEndianBytes addr).1 (bigEndianBytes addr).2
  | .decl w0 w1 => dataOfHalf (fromLittleEndian w0 w1)
  | .encl v => dataOfBytes2 (littleEndianBytes v).1 (littleEndianBytes v).2
  | .rev4 w0 w1 w2 w3 => dataOfBytes4 w3 w2 w1 w0
  | .decp w0 w1 w2 w3 _ _ => dataOfPoint (fromLittleEndian w0 w1) (fromLittleEndian w2 w3)
  | .ckget => dataOfChecksum (checksumOf s.ckAcc) s.ckCnt
  | .agmean => dataOfMean (meanOf s.agSx s.agN) (meanOf s.agSy s.agN) s.agN
  | _ => 0#48

@[simp] theorem ownError_agpush (x y : Half) (n : Nibble) :
    ownError (.agpush x y) n = if n = 15#4 then some .agfull else none := rfl

@[simp] theorem ownError_agmean (n : Nibble) :
    ownError .agmean n = if n = 0#4 then some .agempty else none := rfl

/-- Only the aggregator has errors of its own. -/
theorem ownError_eq_some_iff (i : Instr) (n : Nibble) (e : ErrorKind) :
    ownError i n = some e ↔
      (∃ x y, i = .agpush x y) ∧ n = 15#4 ∧ e = .agfull ∨ i = .agmean ∧ n = 0#4 ∧ e = .agempty := by
  cases i with
  | agpush x y => simp [eq_comm (a := ErrorKind.agfull)]
  | agmean => simp [eq_comm (a := ErrorKind.agempty)]
  | _ => exact ⟨nofun, fun h => by obtain ⟨⟨x, y, hi⟩, -⟩ | ⟨hi, -⟩ := h <;> cases hi⟩

theorem exec_raises {i : Instr} {s : State} {e : ErrorKind} (h : ownError i s.agN = some e) :
    exec i s = raise e s := by
  obtain ⟨⟨x, y, rfl⟩, hn, rfl⟩ | ⟨rfl, hn, rfl⟩ := (ownError_eq_some_iff _ _ _).1 h
  · exact execAgpush_full x y s hn
  · exact execAgmean_none s hn

theorem exec_responds {i : Instr} {s : State} (h : ownError i s.agN = none) :
    exec i s = respond (okData i s) (okState i s) := by
  cases i with
  | agpush x y => exact execAgpush_room x y s (by simpa using h)
  | agmean => exact execAgmean_some s (by simpa using h)
  | _ => rfl

/-- Everything an instruction can do. -/
theorem exec_cases (i : Instr) (s : State) :
    (∃ e, ownError i s.agN = some e ∧ exec i s = raise e s) ∨
    (ownError i s.agN = none ∧ exec i s = respond (okData i s) (okState i s)) := by
  cases h : ownError i s.agN with
  | some e => exact .inl ⟨e, rfl, exec_raises h⟩
  | none => exact .inr ⟨rfl, exec_responds h⟩

/-! ## What completing leaves unchanged -/

theorem okState_sameChecksum {i : Instr} (hrst : i.op ≠ .rst) (hclr : i.op ≠ .ckclr) (hpush : i.op ≠ .ckpush)
    (s : State) : SameChecksum s (okState i s) := by
  cases i with
  | rst => exact absurd rfl hrst
  | ckclr => exact absurd rfl hclr
  | ckpush b => exact absurd rfl hpush
  | _ => exact ⟨rfl, rfl⟩

theorem okState_sameAggregator {i : Instr} (hrst : i.op ≠ .rst) (hclr : i.op ≠ .agclr) (hpush : i.op ≠ .agpush)
    (s : State) : SameAggregator s (okState i s) := by
  cases i with
  | rst => exact absurd rfl hrst
  | agclr => exact absurd rfl hclr
  | agpush x y => exact absurd rfl hpush
  | _ => exact ⟨rfl, rfl, rfl⟩

/-- Without an error only RST touches `STATUS`. -/
theorem okState_status (i : Instr) (s : State) :
    (okState i s).status = if i = .rst then 0#4 else s.status := by
  cases i <;> rfl

@[simp] theorem okState_inReset (i : Instr) (s : State) : (okState i s).inReset = s.inReset := by cases i <;> rfl
@[simp] theorem okState_input (i : Instr) (s : State) : (okState i s).input = s.input := by cases i <;> rfl
@[simp] theorem okState_output (i : Instr) (s : State) : (okState i s).output = s.output := by cases i <;> rfl

/-! ## A command word raises an error or completes -/

/-- The error a command word raises where `n` points are held: the decoder's before the instruction's own (R156). -/
def errorOf (c : Word) (n : Nibble) : Option ErrorKind :=
  match decode c with
  | .ok i => ownError i n
  | .error e => some (decodeErrorKind e)

theorem errorOf_ok {c : Word} {i : Instr} (h : decode c = .ok i) (n : Nibble) : errorOf c n = ownError i n := by
  simp [errorOf, h]

theorem errorOf_error {c : Word} {e : DecodeError} (h : decode c = .error e) (n : Nibble) :
    errorOf c n = some (decodeErrorKind e) := by
  simp [errorOf, h]

theorem execWord_raises {c : Word} {s : State} {e : ErrorKind} (h : errorOf c s.agN = some e) :
    execWord c s = raise e s := by
  cases hd : decode c with
  | ok i => rw [execWord_ok hd, exec_raises ((errorOf_ok hd _).symm.trans h)]
  | error e' => rw [execWord_error hd, Option.some.inj ((errorOf_error hd _).symm.trans h)]

/-- A word that raises no error is the word of an instruction that raises none. -/
theorem decode_of_errorOf_eq_none {c : Word} {n : Nibble} (h : errorOf c n = none) :
    ∃ i, decode c = .ok i ∧ ownError i n = none := by
  cases hd : decode c with
  | ok i => exact ⟨i, rfl, (errorOf_ok hd n).symm.trans h⟩
  | error e => cases (errorOf_error hd n).symm.trans h

end Sys2Proof.Machine

namespace Sys2Proof.Proofs

open Sys2Proof.Machine Sys2Proof.Safety

/-- Settles O20: an error writes its sticky bit alone, and completing writes what `okState` writes. -/
theorem eachInstructionWritesOnlyItsRegisters : Obligations.EachInstructionWritesOnlyItsRegisters := by
  intro i s
  obtain ⟨e, hown, hexec⟩ | ⟨-, hexec⟩ := exec_cases i s
  · refine ⟨_, errorWord e, hexec, fun _ _ _ => ⟨rfl, rfl⟩, fun _ _ _ => ⟨rfl, rfl, rfl⟩, fun _ hpush hmean => ?_,
      rfl, rfl, rfl⟩
    obtain ⟨⟨x, y, rfl⟩, -⟩ | ⟨rfl, -⟩ := (ownError_eq_some_iff _ _ _).1 hown
    · exact absurd rfl hpush
    · exact absurd rfl hmean
  · refine ⟨_, responseWord 0x00#8 (okData i s), hexec, fun h₁ h₂ h₃ => okState_sameChecksum h₁ h₂ h₃ s,
      fun h₁ h₂ h₃ => okState_sameAggregator h₁ h₂ h₃ s, fun hrst _ _ => ?_, by simp, by simp, by simp⟩
    have hi : i ≠ .rst := fun h => hrst (congrArg Instr.op h)
    simp [okState_status, hi]

end Sys2Proof.Proofs

/-! PROOFS. The bound on the coordinate sums (10_state.md R23): it holds after reset, and every step keeps it. -/

namespace Sys2Proof.Machine

open Sys2Proof.Safety

theorem aggBound_clearAggregator (s : State) : AggBound s.clearAggregator := by simp [AggBound]

theorem aggBound_clearRegisters (s : State) : AggBound s.clearRegisters := by simp [AggBound]

/-- With room for one point more, a pushed coordinate adds at most 65535 to its sum, and the count does not wrap. -/
theorem sumAdd_le (a : Sum) (v : Half) (n : Nibble) (hn : n ≠ 15#4) (h : a.toNat ≤ 65535 * n.toNat) :
    (sumAdd a v).toNat ≤ 65535 * (n + 1#4).toNat := by
  have hlt : n.toNat < 15 := by
    have : n.toNat ≠ 15 := fun e => hn (BitVec.eq_of_toNat_eq e)
    omega
  have hcount : (n + 1#4).toNat = n.toNat + 1 := by
    rw [BitVec.toNat_add, BitVec.toNat_ofNat]; omega
  rw [sumAdd_exact a v n.toNat h hlt, hcount]
  omega

theorem okState_keeps_aggBound {i : Instr} {s : State} (hok : ownError i s.agN = none) (hb : AggBound s) :
    AggBound (okState i s) := by
  cases i with
  | rst => exact aggBound_clearRegisters s
  | agclr => exact aggBound_clearAggregator s
  | agpush x y =>
    have hn : s.agN ≠ 15#4 := by simpa using hok
    obtain ⟨hsx, hsy⟩ := hb
    exact ⟨sumAdd_le s.agSx x s.agN hn hsx, sumAdd_le s.agSy y s.agN hn hsy⟩
  | _ => exact hb

theorem exec_keeps_aggBound {i : Instr} {s t : State} (hb : AggBound s) (h : exec i s = .next t) : AggBound t := by
  obtain ⟨e, -, hexec⟩ | ⟨hok, hexec⟩ := exec_cases i s
  · cases hexec.symm.trans h
    exact hb
  · cases hexec.symm.trans h
    exact okState_keeps_aggBound hok hb

theorem execWord_keeps_aggBound {w : Word} {s t : State} (hb : AggBound s) (h : execWord w s = .next t) :
    AggBound t := by
  cases hd : decode w with
  | ok i => exact exec_keeps_aggBound hb ((execWord_ok hd s).symm.trans h)
  | error e =>
    cases (execWord_error hd s).symm.trans h
    exact hb

end Sys2Proof.Machine

namespace Sys2Proof.Proofs

open Sys2Proof.Machine Sys2Proof.Safety

/-- Settles O24. -/
theorem resetMeetsTheSumBound : Obligations.ResetMeetsTheSumBound :=
  ⟨Nat.zero_le _, Nat.zero_le _⟩

/-- Settles O25, along the five things a step can do: only a command that is answered and the reset input write the
aggregator. -/
theorem everyStepKeepsTheSumBound : Obligations.EveryStepKeepsTheSumBound := by
  intro s t hb h
  obtain ⟨-, rfl⟩ | ⟨w, rest, -, -, rfl⟩ | ⟨w, rest, -, -, hw⟩ | ⟨a, rest, -, -, rfl⟩ | ⟨rest, -, -, rfl⟩ :=
    step_cases h
  · exact hb
  · exact hb
  · exact execWord_keeps_aggBound (s := { s with input := rest }) hb hw
  · exact aggBound_clearRegisters s
  · exact hb

end Sys2Proof.Proofs

/-! PROOFS. `STATUS` (10_state.md R25): which words are the causes of its flags, what a command leaves in it, and that
its value changes no behaviour. -/

namespace Sys2Proof

open Sys2Proof.Claims

/-! ## Decode failures and words without operand, as the statements write them -/

theorem opcodes_eq_map : opcodes = Op.all.map (·.opcode.toNat) := rfl

theorem rows_eq_map :
    rows = Op.all.map fun m => (m, m.opcode.toNat, m.pattern, m.mask, m.format.operandBits) := rfl

theorem opcode_eq_opcodeField_iff (m : Op) (c : Word) :
    m.opcode = opcodeField c ↔ c.toNat / 2 ^ 56 = m.opcode.toNat := by
  rw [← BitVec.toNat_inj, opcodeField_toNat, eq_comm]

theorem decode_eq_illop_iff_notMem (c : Word) : decode c = .error .illop ↔ c.toNat / 2 ^ 56 ∉ opcodes := by
  simp only [decode_eq_illop_iff, ne_eq, opcode_eq_opcodeField_iff, opcodes_eq_map, List.mem_map, not_exists, not_and]
  exact forall_congr' fun m => ⟨fun h _ h' => h h'.symm, fun h h' => h m.mem_all h'.symm⟩

/-- A word with a row's opcode fits the row exactly when its reserved byte and its reserved operand bits are zero. -/
theorem fits_iff_reserved_zero {m : Op} {c : Word} (h : c.toNat / 2 ^ 56 = m.opcode.toNat) :
    c &&& m.mask = m.pattern ↔ c.toNat / 2 ^ 48 % 256 = 0 ∧ c.toNat % 2 ^ 48 / 2 ^ m.format.operandBits = 0 := by
  rw [fits_iff, ← h]
  cases m.format <;> simp only [Format.operandBits] <;> omega

theorem decode_eq_rsvd_iff_reservedBitSet (c : Word) : decode c = .error .rsvd ↔ reservedBitSet c := by
  have hrow (m : Op) : (m.opcode = opcodeField c ∧ c &&& m.mask ≠ m.pattern) ↔
      (c.toNat / 2 ^ 56 = m.opcode.toNat ∧
        (c.toNat / 2 ^ 48 % 256 ≠ 0 ∨ c.toNat % 2 ^ 48 / 2 ^ m.format.operandBits ≠ 0)) := by
    rw [opcode_eq_opcodeField_iff]
    exact and_congr_right fun h => by rw [ne_eq, fits_iff_reserved_zero h, not_and_or]
  simp only [decode_eq_rsvd_iff, hrow, reservedBitSet, rows_eq_map, List.mem_map, Op.mem_all, true_and,
    exists_exists_eq_and]

/-- An operation without operand bits has one word. -/
theorem decode_eq_ok_iff_eq_pattern {i : Instr} (hmask : i.op.mask = BitVec.allOnes 64)
    (hextract : ∀ c, extract i.op c = i) (c : Word) : decode c = .ok i ↔ c = i.op.pattern := by
  rw [decode_eq_ok_iff]
  constructor
  · rintro ⟨m, hfits, rfl⟩
    rwa [extract_op, ← BitVec.and_allOnes (x := c), ← hmask, extract_op]
  · rintro rfl
    exact ⟨i.op, by rw [hmask, BitVec.and_allOnes], hextract _⟩

theorem decode_eq_rst_iff (c : Word) : decode c = .ok .rst ↔ c = 0x0100000000000000#64 :=
  decode_eq_ok_iff_eq_pattern (i := .rst) (by decide) (fun _ => rfl) c

theorem decode_eq_rdst_iff (c : Word) : decode c = .ok .rdst ↔ c = 0x0200000000000000#64 :=
  decode_eq_ok_iff_eq_pattern (i := .rdst) (by decide) (fun _ => rfl) c

end Sys2Proof

namespace Sys2Proof.Machine

open Sys2Proof.Safety Sys2Proof.Claims

/-! ## Which words raise which error -/

/-- An instruction's own error is never one of the decoder's. -/
theorem errorOf_eq_decodeErrorKind_iff (c : Word) (n : Nibble) (e : DecodeError) :
    errorOf c n = some (decodeErrorKind e) ↔ decode c = .error e := by
  cases hd : decode c with
  | ok i => cases e <;> simp [errorOf_ok hd, ownError_eq_some_iff, decodeErrorKind]
  | error e' => cases e <;> cases e' <;> simp [errorOf_error hd, decodeErrorKind]

theorem errorOf_eq_illop_iff (c : Word) (n : Nibble) : errorOf c n = some .illop ↔ c.toNat / 2 ^ 56 ∉ opcodes :=
  (errorOf_eq_decodeErrorKind_iff c n .illop).trans (decode_eq_illop_iff_notMem c)

theorem errorOf_eq_rsvd_iff (c : Word) (n : Nibble) : errorOf c n = some .rsvd ↔ reservedBitSet c :=
  (errorOf_eq_decodeErrorKind_iff c n .rsvd).trans (decode_eq_rsvd_iff_reservedBitSet c)

theorem errorOf_eq_agfull_iff (c : Word) (n : Nibble) :
    errorOf c n = some .agfull ↔ (∃ x y, decode c = .ok (.agpush x y)) ∧ n = 15#4 := by
  cases hd : decode c with
  | ok i => simp [errorOf_ok hd, ownError_eq_some_iff]
  | error e => cases e <;> simp [errorOf_error hd, decodeErrorKind]

theorem errorOf_eq_agempty_iff (c : Word) (n : Nibble) :
    errorOf c n = some .agempty ↔ decode c = .ok .agmean ∧ n = 0#4 := by
  cases hd : decode c with
  | ok i => simp [errorOf_ok hd, ownError_eq_some_iff]
  | error e => cases e <;> simp [errorOf_error hd, decodeErrorKind]

/-! ## The flags after a command -/

/-- The `STATUS` bit of an error, by its number (R25). -/
def flagBit (e : ErrorKind) : Nat :=
  match e with
  | .illop => 0
  | .rsvd => 1
  | .agfull => 2
  | .agempty => 3

theorem errorFlag_getLsbD (e e' : ErrorKind) : (errorFlag e).getLsbD (flagBit e') = decide (e = e') := by
  cases e <;> cases e' <;> rfl

/-- Raising an error sets its flag and keeps the others. -/
theorem setSticky_getLsbD (e e' : ErrorKind) (f : Nibble) :
    (setSticky e f).getLsbD (flagBit e') = true ↔ f.getLsbD (flagBit e') = true ∨ e = e' := by
  simp [setSticky, errorFlag_getLsbD]

/-- Each flag after a word: cleared by RST, else kept, and set by its own error alone. -/
theorem execWord_flags (c : Word) (s : State) : ∃ t, execWord c s = .next t ∧ ∀ e : ErrorKind,
    (t.status.getLsbD (flagBit e) = true ↔
      decode c ≠ .ok .rst ∧ (s.status.getLsbD (flagBit e) = true ∨ errorOf c s.agN = some e)) := by
  cases herr : errorOf c s.agN with
  | some e' =>
    have hrst : decode c ≠ .ok .rst := fun hd => by cases (errorOf_ok hd s.agN).symm.trans herr
    refine ⟨_, execWord_raises herr, fun e => ?_⟩
    simp [setSticky_getLsbD, hrst]
  | none =>
    obtain ⟨i, hd, hok⟩ := decode_of_errorOf_eq_none herr
    refine ⟨_, (execWord_ok hd s).trans (exec_responds hok), fun e => ?_⟩
    by_cases hi : i = .rst <;> simp [okState_status, hd, hi]

/-! ## The value of `STATUS` changes no behaviour -/

/-- The same block with another value in `STATUS`. -/
def State.withStatus (s : State) (f : Nibble) : State :=
  { s with status := f }

/-- Two states agree in all that `STATUS` may not influence: the responses and the unit registers. -/
def SameButStatus (s t : State) : Prop :=
  s.output = t.output ∧ SameChecksum s t ∧ SameAggregator s t

theorem okData_withStatus {i : Instr} (h : i ≠ .rdst) (s : State) (f : Nibble) :
    okData i (s.withStatus f) = okData i s := by
  cases i with
  | rdst => exact absurd rfl h
  | _ => rfl

theorem okState_withStatus (i : Instr) (s : State) (f : Nibble) :
    SameButStatus (okState i s) (okState i (s.withStatus f)) := by
  cases i <;> exact ⟨rfl, ⟨rfl, rfl⟩, rfl, rfl, rfl⟩

/-- The same response leaves states that agree but for `STATUS` so. -/
theorem SameButStatus.emit {s t : State} (h : SameButStatus s t) (r : Word) : SameButStatus (s.emit r) (t.emit r) := by
  obtain ⟨hout, hregs⟩ := h
  exact ⟨by simp [hout], hregs⟩

theorem execWord_withStatus {c : Word} (hc : decode c ≠ .ok .rdst) (s : State) (f : Nibble) :
    ∃ t t', execWord c s = .next t ∧ execWord c (s.withStatus f) = .next t' ∧ SameButStatus t t' := by
  cases herr : errorOf c s.agN with
  | some e => exact ⟨_, _, execWord_raises herr, execWord_raises herr, rfl, ⟨rfl, rfl⟩, rfl, rfl, rfl⟩
  | none =>
    obtain ⟨i, hd, hok⟩ := decode_of_errorOf_eq_none herr
    have hi : i ≠ .rdst := fun h => hc (h ▸ hd)
    refine ⟨_, _, (execWord_ok hd s).trans (exec_responds hok),
      (execWord_ok hd _).trans (exec_responds hok), ?_⟩
    rw [okData_withStatus hi]
    exact (okState_withStatus i s f).emit _

end Sys2Proof.Machine

namespace Sys2Proof.Proofs

open Sys2Proof.Machine Sys2Proof.Safety

/-- Settles O17: `execWord_flags` at each of the four errors. -/
theorem flagsAreStickyAndSetOnlyByTheirError : Obligations.FlagsAreStickyAndSetOnlyByTheirError := by
  intro s c rest ⟨hr, hi⟩
  obtain ⟨t, ht, hflag⟩ := execWord_flags c { s with input := rest }
  simp only [ne_eq, decode_eq_rst_iff] at hflag
  refine ⟨t, (step_command hr hi).trans ht, ?_, ?_, ?_, ?_⟩
  · rw [← errorOf_eq_illop_iff c s.agN]; exact hflag .illop
  · rw [← errorOf_eq_rsvd_iff c s.agN]; exact hflag .rsvd
  · rw [← errorOf_eq_agfull_iff]; exact hflag .agfull
  · rw [← errorOf_eq_agempty_iff]; exact hflag .agempty

/-- Settles O18. -/
theorem flagsChangeNoBehaviour : Obligations.FlagsChangeNoBehaviour := by
  intro s f c rest ⟨hr, hi⟩ hc
  obtain ⟨t, t', ht, ht', hsame⟩ := execWord_withStatus (mt (decode_eq_rdst_iff c).1 hc) { s with input := rest } f
  exact ⟨t, t', (step_command hr hi).trans ht, (step_command (s := s.withStatus f) hr hi).trans ht', hsame⟩

end Sys2Proof.Proofs

/-! PROOFS. The units read and write no register of another (10_state.md R20, R30), and reset (R29, R175). -/

namespace Sys2Proof.Machine

open Sys2Proof.Safety

/-! ## The three units -/

theorem responseStatus_responseWord (code : Byte) (d : Lanes) : responseStatus (responseWord code d) = code.toNat := by
  have := d.isLt
  rw [responseStatus, responseWord_toNat]; omega

/-- The codec unit answers from its operands alone (R30). -/
theorem exec_codec {i : Instr} (hop : i.op ∈ [Op.enca, Op.decl, Op.encl, Op.rev4, Op.decp]) (s : State) :
    exec i s = respond (okData i State.reset) s := by
  cases i with
  | enca _ | decl _ _ | encl _ | rev4 _ _ _ _ | decp _ _ _ _ _ _ => rfl
  | _ => simp [Instr.op] at hop

/-- In all states that agree with `s₀` in the checksum registers, a checksum instruction answers the same data and
writes the same values, into those registers alone. -/
theorem exec_checksumUnit {i : Instr} (hop : i.op ∈ [Op.ckclr, Op.ckpush, Op.ckget]) (s₀ : State) :
    ∃ (d : Lanes) (acc cnt : Byte), ∀ s, SameChecksum s₀ s →
      exec i s = respond d { s with ckAcc := acc, ckCnt := cnt } := by
  cases i with
  | ckclr => exact ⟨0#48, 0#8, 0#8, fun _ _ => rfl⟩
  | ckpush b =>
    refine ⟨0#48, checksumAdd s₀.ckAcc b, countUp s₀.ckCnt, fun s ⟨hacc, hcnt⟩ => ?_⟩
    rw [hacc, hcnt]; rfl
  | ckget =>
    refine ⟨dataOfChecksum (checksumOf s₀.ckAcc) s₀.ckCnt, s₀.ckAcc, s₀.ckCnt, fun s ⟨hacc, hcnt⟩ => ?_⟩
    rw [hacc, hcnt]; rfl
  | _ => simp [Instr.op] at hop

/-- `s` after an aggregator instruction: three registers written, the sticky bits `f` set, `r` answered. -/
def State.afterAggregator (s : State) (sx sy : Sum) (n f : Nibble) (r : Word) : State :=
  { s with agSx := sx, agSy := sy, agN := n, status := s.status ||| f, output := s.output ++ [r] }

/-- Completing is the case of no sticky bit. -/
theorem respond_eq_afterAggregator (d : Lanes) (s : State) (sx sy : Sum) (n : Nibble) :
    respond d { s with agSx := sx, agSy := sy, agN := n } =
      .next (s.afterAggregator sx sy n 0b0000#4 (responseWord 0x00#8 d)) := by
  simp [respond_eq, State.afterAggregator]

/-- In all states that agree with `s₀` in the aggregator's registers, an aggregator instruction answers the same, writes
the same values into those registers and sets the same one of no bit, `AGFULL` and `AGEMPTY`. -/
theorem exec_aggregatorUnit {i : Instr} (hop : i.op ∈ [Op.agclr, Op.agpush, Op.agmean]) (s₀ : State) :
    ∃ (sx sy : Sum) (n f : Nibble) (r : Word), (f = 0b0000#4 ∨ f = 0b0100#4 ∨ f = 0b1000#4) ∧
      ∀ s, SameAggregator s₀ s → exec i s = .next (s.afterAggregator sx sy n f r) := by
  cases i with
  | agclr => exact ⟨_, _, _, _, _, .inl rfl, fun s _ => respond_eq_afterAggregator 0#48 s 0#20 0#20 0#4⟩
  | agpush x y =>
    by_cases hfull : s₀.agN = 15#4
    · refine ⟨s₀.agSx, s₀.agSy, s₀.agN, _, errorWord .agfull, .inr (.inl rfl), fun s ⟨hsx, hsy, hn⟩ => ?_⟩
      rw [hsx, hsy, hn]
      exact execAgpush_full x y s (hn ▸ hfull)
    · refine ⟨sumAdd s₀.agSx x, sumAdd s₀.agSy y, s₀.agN + 1#4, _, responseWord 0x00#8 0#48, .inl rfl,
        fun s ⟨hsx, hsy, hn⟩ => ?_⟩
      rw [hsx, hsy, hn, ← respond_eq_afterAggregator]
      exact execAgpush_room x y s (hn ▸ hfull)
  | agmean =>
    by_cases hempty : s₀.agN = 0#4
    · refine ⟨s₀.agSx, s₀.agSy, s₀.agN, _, errorWord .agempty, .inr (.inr rfl), fun s ⟨hsx, hsy, hn⟩ => ?_⟩
      rw [hsx, hsy, hn]
      exact execAgmean_none s (hn ▸ hempty)
    · refine ⟨s₀.agSx, s₀.agSy, s₀.agN, _,
        responseWord 0x00#8 (dataOfMean (meanOf s₀.agSx s₀.agN) (meanOf s₀.agSy s₀.agN) s₀.agN), .inl rfl,
        fun s ⟨hsx, hsy, hn⟩ => ?_⟩
      rw [hsx, hsy, hn, ← respond_eq_afterAggregator]
      exact execAgmean_some s (hn ▸ hempty)
  | _ => simp [Instr.op] at hop

/-! ## Reset -/

theorem registersZero_clearRegisters (s : State) : RegistersZero s.clearRegisters :=
  ⟨rfl, rfl, rfl, rfl, rfl, rfl⟩

/-- A release of an asserted reset input (R175). -/
theorem step_release {s : State} {rest : List HostEvent} (hr : s.inReset = true)
    (hi : s.input = .resetLine false :: rest) :
    step s = .next { s.clearRegisters with inReset := false, input := rest } := by
  rw [step_cons hi]
  simp only [serve, driveReset, hr, Bool.or_true, if_true]
  rfl

end Sys2Proof.Machine

namespace Sys2Proof.Proofs

open Sys2Proof.Machine Sys2Proof.Safety

/-- Settles O21. -/
theorem codecIsStatelessAndTotal : Obligations.CodecIsStatelessAndTotal := fun i hop =>
  ⟨responseWord 0x00#8 (okData i State.reset), responseStatus_responseWord _ _, exec_codec hop⟩

/-- Settles O22: both states agree with the first in the checksum registers. -/
theorem checksumUnitIsIndependent : Obligations.ChecksumUnitIsIndependent := by
  intro i s₁ s₂ hop hsame
  obtain ⟨d, acc, cnt, hexec⟩ := exec_checksumUnit hop s₁
  exact ⟨_, _, responseWord 0x00#8 d, hexec s₁ ⟨rfl, rfl⟩, hexec s₂ hsame, ⟨rfl, rfl⟩, rfl, rfl⟩

/-- Settles O23: both states agree with the first in the aggregator's registers. -/
theorem aggregatorUnitIsIndependent : Obligations.AggregatorUnitIsIndependent := by
  intro i s₁ s₂ hop hsame
  obtain ⟨sx, sy, n, f, r, hf, hexec⟩ := exec_aggregatorUnit hop s₁
  exact ⟨_, _, r, f, hexec s₁ ⟨rfl, rfl, rfl⟩, hexec s₂ hsame, ⟨rfl, rfl, rfl⟩, hf, rfl, rfl⟩

/-- Settles O1: each way to reset is the writes of `clearRegisters`, and CKCLR then AGCLR are these but for `STATUS`. -/
theorem resetLeavesEveryRegisterZero : Obligations.ResetLeavesEveryRegisterZero := by
  refine ⟨⟨rfl, rfl, rfl, rfl, rfl, rfl⟩, fun s => ?_, fun s rest hr hi => ?_, fun s hstatus => ?_⟩
  · exact ⟨_, rfl, registersZero_clearRegisters s⟩
  · exact ⟨_, step_release hr hi, registersZero_clearRegisters s⟩
  · exact ⟨_, _, rfl, rfl, rfl, rfl, rfl, rfl, rfl, hstatus⟩

end Sys2Proof.Proofs

/-! PROOFS. The checksum of any pushed bytes (10_state.md R21, R22, 41_checksum.md R113): runs of CKPUSH, by induction on
the bytes. -/

namespace Sys2Proof.Machine

open Sys2Proof.Laws

/-! ## Presented instructions -/

theorem decode_encode_of_extract {i : Instr} (hfits : ReservedZero.Statement i)
    (hextract : extract i.op (encode i) = i) : decode (encode i) = .ok i :=
  (decode_eq_ok_iff _ _).2 ⟨i.op, hfits, hextract⟩

theorem operandByte_encode_ckpush (b : Byte) : operandByte (encode (.ckpush b)) 0 = b := by
  have := b.isLt
  apply BitVec.eq_of_toNat_eq
  rw [operandByte_toNat, encode_toNat, operandOf, toNat_append_eq]
  simp only [Instr.op, Op.opcode, BitVec.toNat_ofNat]; omega

theorem decode_encode_ckclr : decode (encode .ckclr) = .ok .ckclr :=
  decode_encode_of_extract ReservedZero.ckclr rfl

theorem decode_encode_ckget : decode (encode .ckget) = .ok .ckget :=
  decode_encode_of_extract ReservedZero.ckget rfl

theorem decode_encode_ckpush (b : Byte) : decode (encode (.ckpush b)) = .ok (.ckpush b) :=
  decode_encode_of_extract (ReservedZero.ckpush b) (congrArg Instr.ckpush (operandByte_encode_ckpush b))

/-- The first of the presented instructions runs. -/
theorem step_present {s : State} {i : Instr} {is : List Instr} {rest : List HostEvent} (hr : s.inReset = false)
    (hi : s.input = present (i :: is) ++ rest) (hd : decode (encode i) = .ok i) :
    step s = exec i { s with input := present is ++ rest } :=
  (step_command hr hi).trans (execWord_ok hd _)

/-! ## Runs of CKPUSH -/

/-- The state after a push of each of `bs`, with `rest` left to come. -/
def State.afterPushes (s : State) (bs : List Byte) (rest : List HostEvent) : State :=
  { s with
    ckAcc := bs.foldl checksumAdd s.ckAcc
    ckCnt := bs.foldl (fun n _ => countUp n) s.ckCnt
    input := rest
    output := s.output ++ List.replicate bs.length 0x0000000000000000#64 }

theorem exec_ckpush_eq_afterPushes (b : Byte) (s : State) (rest : List HostEvent) :
    exec (.ckpush b) { s with input := rest } = .next (s.afterPushes [b] rest) := rfl

theorem State.afterPushes_nil (s : State) : s.afterPushes [] s.input = s := by
  simp [State.afterPushes]

theorem State.afterPushes_afterPushes (s : State) (bs bs' : List Byte) (mid rest : List HostEvent) :
    (s.afterPushes bs mid).afterPushes bs' rest = s.afterPushes (bs ++ bs') rest := by
  simp [State.afterPushes]

theorem run_pushes {s : State} {bs : List Byte} {rest : List HostEvent} (hr : s.inReset = false)
    (hi : s.input = present (bs.map .ckpush) ++ rest) :
    Host.Core.run Sys2Proof.core bs.length s = .next (s.afterPushes bs rest) := by
  induction bs generalizing s with
  | nil =>
    obtain rfl : s.input = rest := hi
    exact congrArg _ s.afterPushes_nil.symm
  | cons b bs ih =>
    have hpush : step s = .next (s.afterPushes [b] (present (bs.map .ckpush) ++ rest)) :=
      step_present hr hi (decode_encode_ckpush b)
    have hrest := (run_succ bs.length hpush).trans (ih hr rfl)
    rwa [State.afterPushes_afterPushes, List.singleton_append] at hrest

/-- `CK.ACC` after the pushes (R21). -/
theorem foldl_checksumAdd (bs : List Byte) (acc : Byte) :
    bs.foldl checksumAdd acc = BitVec.ofNat 8 ((acc.toNat + (bs.map BitVec.toNat).sum) % 256) := by
  apply BitVec.eq_of_toNat_eq
  rw [BitVec.toNat_ofNat]
  induction bs generalizing acc with
  | nil => rw [List.foldl_nil, List.map_nil, List.sum_nil]; omega
  | cons b bs ih => rw [List.foldl_cons, ih, checksumAdd_toNat, List.map_cons, List.sum_cons]; omega

/-- `CK.CNT` after the pushes (R22). -/
theorem foldl_countUp (bs : List Byte) (cnt : Byte) :
    bs.foldl (fun n _ => countUp n) cnt = BitVec.ofNat 8 (min (cnt.toNat + bs.length) 255) := by
  apply BitVec.eq_of_toNat_eq
  rw [BitVec.toNat_ofNat]
  induction bs generalizing cnt with
  | nil => rw [List.foldl_nil, List.length_nil]; omega
  | cons b bs ih => rw [List.foldl_cons, ih, countUp_toNat, List.length_cons]; omega

/-! ## CKCLR, pushes, CKGET -/

/-- The state after CKCLR, with `rest` left to come. -/
def State.afterCkclr (s : State) (rest : List HostEvent) : State :=
  { s with ckAcc := 0x00#8, ckCnt := 0x00#8, input := rest, output := s.output ++ [0x0000000000000000#64] }

/-- What CKGET answers. -/
def State.ckgetWord (s : State) : Word :=
  responseWord 0x00#8 (dataOfChecksum (checksumOf s.ckAcc) s.ckCnt)

theorem State.ckgetWord_eq (s : State) :
    s.ckgetWord = BitVec.ofNat 64 ((256 - s.ckAcc.toNat) % 256 + 256 * s.ckCnt.toNat) := by
  have := s.ckCnt.isLt
  apply BitVec.eq_of_toNat_eq
  rw [State.ckgetWord, responseWord_toNat, dataOfChecksum_toNat, checksumOf_toNat, BitVec.toNat_ofNat,
    BitVec.toNat_ofNat]
  omega

theorem run_pushes_ckget {s : State} {bs : List Byte} {rest : List HostEvent} (hr : s.inReset = false)
    (hi : s.input = present (bs.map .ckpush) ++ (present [.ckget] ++ rest)) :
    Host.Core.run Sys2Proof.core (bs.length + 1) s =
      .next ((s.afterPushes bs rest).emit (s.afterPushes bs rest).ckgetWord) := by
  have hget := step_present (s := s.afterPushes bs (present [.ckget] ++ rest)) hr rfl decode_encode_ckget
  exact (run_add _ 1 (run_pushes hr hi)).trans (run_succ 0 hget)

/-- The run of `CKSUM` (R83): CKCLR, the pushes, CKGET. -/
theorem run_cksum {s : State} {bs : List Byte} {rest : List HostEvent} (hr : s.inReset = false)
    (hi : s.input = present (cksum bs) ++ rest) :
    Host.Core.run Sys2Proof.core (bs.length + 2) s = .next (((s.afterCkclr rest).afterPushes bs rest).emit
      ((s.afterCkclr rest).afterPushes bs rest).ckgetWord) := by
  have hsplit : present (bs.map .ckpush ++ [.ckget]) ++ rest =
      present (bs.map .ckpush) ++ (present [.ckget] ++ rest) := by
    simp [present]
  have hclear : step s = .next (s.afterCkclr (present (bs.map .ckpush) ++ (present [.ckget] ++ rest))) :=
    hsplit ▸ step_present hr hi decode_encode_ckclr
  exact (run_succ _ hclear).trans (run_pushes_ckget hr rfl)

end Sys2Proof.Machine

namespace Sys2Proof.Proofs

open Sys2Proof.Machine Sys2Proof.Safety

/-- Settles O46: the two folds over the bytes as arithmetic, and CKGET's word of them. -/
theorem checksumOfAnyPushedBytes : Obligations.ChecksumOfAnyPushedBytes := by
  intro s bs rest hr hi
  have hcnt : min bs.length 255 % 256 = min bs.length 255 := by omega
  refine (run_cksum hr hi).trans ?_
  simp [State.ckgetWord_eq, State.afterPushes, State.afterCkclr, State.emit, foldl_checksumAdd, foldl_countUp, hcnt,
    List.replicate_succ]

end Sys2Proof.Proofs

/-! PROOFS. Runs of arbitrary command words (20_memory.md R58, 60_exceptions.md R155): what a word adds to a unit's
accumulators, and the totals that a run conserves: what a unit holds plus what the words still to come push. -/

namespace Sys2Proof

open Sys2Proof.Safety

/-! ## Words and the rows they fit -/

theorem decode_of_fits {m : Op} {c : Word} (h : c &&& m.mask = m.pattern) : decode c = .ok (extract m c) :=
  (decode_eq_ok_iff _ _).2 ⟨m, h, rfl⟩

/-- A word fits the row of the operation it decodes to. -/
theorem fits_of_decode {c : Word} {i : Instr} (h : decode c = .ok i) : c &&& i.op.mask = i.op.pattern := by
  obtain ⟨m, hfits, rfl⟩ := (decode_eq_ok_iff _ _).1 h
  rwa [extract_op]

/-- The row of an operation without operand bits is fitted by one word. -/
theorem fits_iff_eq_pattern {m : Op} (hmask : m.mask = BitVec.allOnes 64) (c : Word) :
    c &&& m.mask = m.pattern ↔ c = m.pattern := by
  rw [hmask, BitVec.and_allOnes]

theorem op_ne_of_not_fits {c : Word} {i : Instr} (hd : decode c = .ok i) {m : Op} (h : ¬ c &&& m.mask = m.pattern) :
    i.op ≠ m :=
  fun hop => h (hop ▸ fits_of_decode hd)

theorem op_ne_of_ne_pattern {c : Word} {i : Instr} (hd : decode c = .ok i) {m : Op}
    (hmask : m.mask = BitVec.allOnes 64) (h : c ≠ m.pattern) : i.op ≠ m :=
  op_ne_of_not_fits hd (mt (fits_iff_eq_pattern hmask c).1 h)

theorem isCkpush_iff_fits (c : Word) : isCkpush c = true ↔ c &&& Op.ckpush.mask = Op.ckpush.pattern := by
  rw [fits_iff]
  exact beq_iff_eq

theorem isAgpush_iff_fits (c : Word) : isAgpush c = true ↔ c &&& Op.agpush.mask = Op.agpush.pattern := by
  rw [fits_iff]
  exact beq_iff_eq

theorem decode_of_isCkpush {c : Word} (h : isCkpush c = true) : decode c = .ok (.ckpush (operandByte c 0)) :=
  decode_of_fits ((isCkpush_iff_fits c).1 h)

theorem decode_of_isAgpush {c : Word} (h : isAgpush c = true) :
    decode c = .ok (.agpush (operandHalf c 0) (operandHalf c 2)) :=
  decode_of_fits ((isAgpush_iff_fits c).1 h)

end Sys2Proof

namespace Sys2Proof.Machine

open Sys2Proof.Safety

/-! ## Runs of command words -/

/-- Everything a word's answer can be: an error's, or that of a completed instruction. -/
theorem execWord_next_cases {c : Word} {s t : State} (h : execWord c s = .next t) :
    (∃ e, raise e s = .next t) ∨ ∃ i, decode c = .ok i ∧ respond (okData i s) (okState i s) = .next t := by
  cases herr : errorOf c s.agN with
  | some e => exact .inl ⟨e, (execWord_raises herr).symm.trans h⟩
  | none =>
    obtain ⟨i, hd, hok⟩ := decode_of_errorOf_eq_none herr
    exact .inr ⟨i, hd, (exec_responds hok).symm.trans ((execWord_ok hd s).symm.trans h)⟩

/-- A presented word is answered, and the block takes nothing more from the host. -/
theorem step_command_next {s : State} {w : Word} {rest : List HostEvent} (hr : s.inReset = false)
    (hi : s.input = .command w :: rest) :
    ∃ t, step s = .next t ∧ execWord w { s with input := rest } = .next t ∧ t.inReset = false ∧ t.input = rest := by
  obtain ⟨t, r, hrt, hexec⟩ := execWord_answersFromRegisters w s
  exact ⟨t.withHost rest (s.output ++ [r]), (step_command hr hi).trans (hexec rest s.output), hexec rest s.output,
    hrt.trans hr, rfl⟩

/-- Induction over the words of a run: a property of the words still to come and of the state that each word's answer
keeps holds, with no word left, where the run ends. -/
theorem run_commands {P : List Word → State → Prop}
    (hnext : ∀ w ws rest s t, P (w :: ws) s → execWord w { s with input := rest } = .next t → P ws t)
    {s : State} {ws : List Word} {rest : List HostEvent} (hr : s.inReset = false)
    (hi : s.input = ws.map .command ++ rest) (hP : P ws s) :
    ∃ t : State, Host.Core.run Sys2Proof.core ws.length s = .next t ∧ P [] t := by
  induction ws generalizing s with
  | nil => exact ⟨s, rfl, hP⟩
  | cons w ws ih =>
    obtain ⟨t, hstep, hexec, hrt, hit⟩ := step_command_next hr hi
    obtain ⟨u, hrun, hu⟩ := ih hrt hit (hnext w ws _ s t hP hexec)
    exact ⟨u, (run_succ ws.length hstep).trans hrun, hu⟩

/-! ## What one word adds to the checksum -/

theorem execWord_sameChecksum {c : Word} {s t : State} (hrst : c ≠ Op.rst.pattern) (hclr : c ≠ Op.ckclr.pattern)
    (hpush : ¬ isCkpush c = true) (h : execWord c s = .next t) : SameChecksum s t := by
  obtain ⟨e, h⟩ | ⟨i, hd, h⟩ := execWord_next_cases h
  · cases h
    exact ⟨rfl, rfl⟩
  · cases h
    exact okState_sameChecksum (op_ne_of_ne_pattern hd (by decide) hrst) (op_ne_of_ne_pattern hd (by decide) hclr)
      (op_ne_of_not_fits hd (mt (isCkpush_iff_fits c).2 hpush)) s

theorem execWord_of_isCkpush {c : Word} (h : isCkpush c = true) (s : State) :
    execWord c s = respond 0#48
      { s with ckAcc := checksumAdd s.ckAcc (operandByte c 0), ckCnt := countUp s.ckCnt } :=
  execWord_ok (decode_of_isCkpush h) s

/-- A word that does not clear the checksum unit adds its pushed byte, and one to the count if it is a push. -/
theorem execWord_checksum {c : Word} {s t : State} (hrst : c ≠ Op.rst.pattern) (hclr : c ≠ Op.ckclr.pattern)
    (h : execWord c s = .next t) :
    t.ckAcc.toNat = (s.ckAcc.toNat + pushedByte c) % 256 ∧
    t.ckCnt.toNat = min (s.ckCnt.toNat + if isCkpush c = true then 1 else 0) 255 := by
  by_cases hpush : isCkpush c = true
  · cases (execWord_of_isCkpush hpush s).symm.trans h
    simp [pushedByte, hpush, checksumAdd_toNat, countUp_toNat, operandByte_toNat]
  · obtain ⟨hacc, hcnt⟩ := execWord_sameChecksum hrst hclr hpush h
    have := t.ckAcc.isLt
    have := t.ckCnt.isLt
    rw [pushedByte, if_neg hpush, if_neg hpush, hacc, hcnt]
    omega

/-! ## What one word adds to the aggregator -/

theorem execWord_sameAggregator {c : Word} {s t : State} (hrst : c ≠ Op.rst.pattern) (hclr : c ≠ Op.agclr.pattern)
    (hpush : ¬ isAgpush c = true) (h : execWord c s = .next t) : SameAggregator s t := by
  obtain ⟨e, h⟩ | ⟨i, hd, h⟩ := execWord_next_cases h
  · cases h
    exact ⟨rfl, rfl, rfl⟩
  · cases h
    exact okState_sameAggregator (op_ne_of_ne_pattern hd (by decide) hrst) (op_ne_of_ne_pattern hd (by decide) hclr)
      (op_ne_of_not_fits hd (mt (isAgpush_iff_fits c).2 hpush)) s

theorem execWord_of_isAgpush {c : Word} (h : isAgpush c = true) {s : State} (hroom : s.agN ≠ 15#4) :
    execWord c s = respond 0#48
      { s with agSx := sumAdd s.agSx (operandHalf c 0), agSy := sumAdd s.agSy (operandHalf c 2), agN := s.agN + 1#4 } :=
  (execWord_ok (decode_of_isAgpush h) s).trans (execAgpush_room _ _ s hroom)

/-- A word that does not clear the aggregator adds its pushed point exactly, as long as a push finds room. -/
theorem execWord_aggregator {c : Word} {s t : State} (hrst : c ≠ Op.rst.pattern) (hclr : c ≠ Op.agclr.pattern)
    (hb : AggBound s) (hroom : s.agN.toNat + (if isAgpush c = true then 1 else 0) ≤ 15)
    (h : execWord c s = .next t) :
    t.agN.toNat = s.agN.toNat + (if isAgpush c = true then 1 else 0) ∧
    t.agSx.toNat = s.agSx.toNat + pushedX c ∧ t.agSy.toNat = s.agSy.toNat + pushedY c := by
  by_cases hpush : isAgpush c = true
  · simp only [hpush, if_true] at hroom
    have hlt : s.agN.toNat < 15 := by omega
    have hne : s.agN ≠ 15#4 := fun hn => by simp [hn] at hlt
    have hcount : (s.agN + 1#4).toNat = s.agN.toNat + 1 := by
      rw [BitVec.toNat_add, BitVec.toNat_ofNat]; omega
    obtain ⟨hsx, hsy⟩ := hb
    cases (execWord_of_isAgpush hpush hne).symm.trans h
    simp [pushedX, pushedY, hpush, hcount, sumAdd_exact _ _ _ hsx hlt, sumAdd_exact _ _ _ hsy hlt,
      operandHalf_toNat]
  · obtain ⟨hsx, hsy, hn⟩ := execWord_sameAggregator hrst hclr hpush h
    simp [pushedX, pushedY, hpush, hsx, hsy, hn]

/-! ## The totals a run conserves -/

/-- None of the words still to come clears the checksum unit, and with their pushes it reaches `acc` and `cnt`. -/
def ChecksumReaches (acc cnt : Nat) (ws : List Word) (s : State) : Prop :=
  (∀ w ∈ ws, w ≠ Op.rst.pattern ∧ w ≠ Op.ckclr.pattern) ∧
  (s.ckAcc.toNat + (ws.map pushedByte).sum) % 256 = acc ∧
  min (s.ckCnt.toNat + ws.countP isCkpush) 255 = cnt

theorem execWord_keeps_checksumReaches {acc cnt : Nat} {w : Word} {ws : List Word} {s t : State}
    (hP : ChecksumReaches acc cnt (w :: ws) s) (h : execWord w s = .next t) : ChecksumReaches acc cnt ws t := by
  obtain ⟨hws, hacc, hcnt⟩ := hP
  obtain ⟨⟨hrst, hclr⟩, hws⟩ := List.forall_mem_cons.1 hws
  obtain ⟨hacc', hcnt'⟩ := execWord_checksum hrst hclr h
  rw [List.map_cons, List.sum_cons] at hacc
  rw [List.countP_cons] at hcnt
  exact ⟨hws, by omega, by omega⟩

/-- None of the words still to come clears the aggregator, and with their pushes it reaches `n` points, for which it has
room, and the sums `sx` and `sy`. -/
def AggregatorReaches (n sx sy : Nat) (ws : List Word) (s : State) : Prop :=
  (∀ w ∈ ws, w ≠ Op.rst.pattern ∧ w ≠ Op.agclr.pattern) ∧ AggBound s ∧ n ≤ 15 ∧
  s.agN.toNat + ws.countP isAgpush = n ∧
  s.agSx.toNat + (ws.map pushedX).sum = sx ∧
  s.agSy.toNat + (ws.map pushedY).sum = sy

theorem execWord_keeps_aggregatorReaches {n sx sy : Nat} {w : Word} {ws : List Word} {s t : State}
    (hP : AggregatorReaches n sx sy (w :: ws) s) (h : execWord w s = .next t) : AggregatorReaches n sx sy ws t := by
  obtain ⟨hws, hb, hle, hn, hsx, hsy⟩ := hP
  obtain ⟨⟨hrst, hclr⟩, hws⟩ := List.forall_mem_cons.1 hws
  rw [List.countP_cons] at hn
  rw [List.map_cons, List.sum_cons] at hsx hsy
  obtain ⟨hn', hsx', hsy'⟩ := execWord_aggregator hrst hclr hb (by omega) h
  exact ⟨hws, execWord_keeps_aggBound hb h, hle, by omega, by omega, by omega⟩

theorem forall_mem_ne_of_notMem {a b : Word} {ws : List Word} (ha : a ∉ ws) (hb : b ∉ ws) :
    ∀ w ∈ ws, w ≠ a ∧ w ≠ b :=
  fun _ hw => ⟨ne_of_mem_of_not_mem hw ha, ne_of_mem_of_not_mem hw hb⟩

end Sys2Proof.Machine

namespace Sys2Proof.Proofs

open Sys2Proof.Machine Sys2Proof.Safety

/-- Settles O48: what the checksum unit reaches with the words still to come is conserved along the run. -/
theorem checksumCountsExactlyThePushes : Obligations.ChecksumCountsExactlyThePushes := by
  intro s ws rest hr hi hrst hclr
  obtain ⟨t, hrun, -, hacc, hcnt⟩ := run_commands (P := ChecksumReaches _ _)
    (fun _ _ rest s _ hP h => execWord_keeps_checksumReaches (s := { s with input := rest }) hP h) hr hi
    ⟨forall_mem_ne_of_notMem hrst hclr, rfl, rfl⟩
  have := t.ckAcc.isLt
  have := t.ckCnt.isLt
  rw [List.map_nil, List.sum_nil] at hacc
  rw [List.countP_nil] at hcnt
  exact ⟨t, hrun, by omega, by omega⟩

/-- Settles O52: what the aggregator reaches with the words still to come is conserved along the run. -/
theorem aggregatorSumsExactlyThePushes : Obligations.AggregatorSumsExactlyThePushes := by
  intro s ws rest hr hb hi hrst hclr hroom
  obtain ⟨t, hrun, -, -, -, hn, hsx, hsy⟩ := run_commands (P := AggregatorReaches _ _ _)
    (fun _ _ rest s _ hP h => execWord_keeps_aggregatorReaches (s := { s with input := rest }) hP h) hr hi
    ⟨forall_mem_ne_of_notMem hrst hclr, hb, hroom, rfl, rfl, rfl⟩
  exact ⟨t, hrun, hn, hsx, hsy⟩

end Sys2Proof.Proofs

/-! PROOFS. Encoding and decoding are inverse (30_encoding.md R70, R71, R77): the operand as its fields packed one above
the other, lowest first, with the widths of R71, and the numbers of an assembly line as these fields (R82). -/

namespace Sys2Proof

open Sys2Proof.Safety Sys2Proof.Laws

/-! ## Packed fields -/

/-- The number that packs the fields `xs`, of widths `ws`, one above the other, the first lowest. -/
def packFields : List Nat → List Nat → Nat
  | w :: ws, x :: xs => x + 2 ^ w * packFields ws xs
  | _, _ => 0

/-- The fields of widths `ws` that a number holds in its low bits, the lowest first. -/
def fieldsOf : List Nat → Nat → List Nat
  | [], _ => []
  | w :: ws, n => n % 2 ^ w :: fieldsOf ws (n / 2 ^ w)

/-- There is one number per field, and each fits its field (R73). -/
abbrev FieldsFit (ws xs : List Nat) : Prop :=
  List.Forall₂ (fun x w => x < 2 ^ w) xs ws

theorem packFields_lt {ws xs : List Nat} (h : FieldsFit ws xs) : packFields ws xs < 2 ^ ws.sum := by
  induction h with
  | nil => simp [packFields]
  | @cons x w xs ws hx _ ih =>
    rw [packFields, List.sum_cons, Nat.pow_add]
    calc x + 2 ^ w * packFields ws xs < 2 ^ w * (packFields ws xs + 1) := by rw [Nat.mul_succ]; omega
      _ ≤ 2 ^ w * 2 ^ ws.sum := Nat.mul_le_mul_left _ ih

/-- Unpacking gives the packed fields back, whatever stands above them. -/
theorem fieldsOf_packFields {ws xs : List Nat} (h : FieldsFit ws xs) (k : Nat) :
    fieldsOf ws (2 ^ ws.sum * k + packFields ws xs) = xs := by
  induction h with
  | nil => rfl
  | @cons x w xs ws hx _ ih =>
    have hsplit : 2 ^ (w :: ws).sum * k + packFields (w :: ws) (x :: xs) =
        x + 2 ^ w * (2 ^ ws.sum * k + packFields ws xs) := by
      rw [packFields, List.sum_cons, Nat.pow_add]; ring
    rw [hsplit, fieldsOf, Nat.add_mul_mod_self_left, Nat.mod_eq_of_lt hx,
      Nat.add_mul_div_left _ _ (Nat.two_pow_pos w), Nat.div_eq_of_lt hx, Nat.zero_add, ih]

/-- Packing what was unpacked gives the low bits back. -/
theorem packFields_fieldsOf (ws : List Nat) (n : Nat) : packFields ws (fieldsOf ws n) = n % 2 ^ ws.sum := by
  induction ws generalizing n with
  | nil => simp [packFields, Nat.mod_one]
  | cons w ws ih => rw [fieldsOf, packFields, ih, List.sum_cons, Nat.pow_add, Nat.mod_mul]

/-! ## Instructions as an operation with its fields -/

theorem Op.sum_operandWidths (m : Op) : m.operandWidths.sum = m.format.operandBits := by cases m <;> rfl

/-- The operand of an instruction packs its operand numbers (R71). -/
theorem operandOf_toNat (i : Instr) : (operandOf i).toNat = packFields i.op.operandWidths (operandsOf i) := by
  cases i <;>
    simp only [operandOf, operandsOf, Instr.op, Op.operandWidths, packFields, toNat_append_eq, BitVec.toNat_ofNat] <;>
    omega

/-- The decoder takes the operand numbers from the word's low bits (R71). -/
theorem operandsOf_extract (m : Op) (c : Word) : operandsOf (extract m c) = fieldsOf m.operandWidths c.toNat := by
  cases m <;>
    simp [extract, operandsOf, Op.operandWidths, fieldsOf, operandByte_toNat, operandHalf_toNat, Nat.div_div_eq_div_mul]

theorem operandsOf_fit (i : Instr) : FieldsFit i.op.operandWidths (operandsOf i) := by
  cases i <;> simp only [FieldsFit, Instr.op, Op.operandWidths, operandsOf, List.forall₂_cons, List.Forall₂.nil,
    BitVec.isLt, and_self]

theorem operandOf_lt (i : Instr) : (operandOf i).toNat < 2 ^ i.op.format.operandBits := by
  rw [operandOf_toNat, ← Op.sum_operandWidths]
  exact packFields_lt (operandsOf_fit i)

theorem instrOf_operandsOf (i : Instr) : instrOf i.op (operandsOf i) = some i := by
  cases i <;> simp [Instr.op, operandsOf, instrOf]

/-- An instruction is its operation and its operand numbers. -/
theorem Instr.eq_of_operandsOf {i j : Instr} (hop : i.op = j.op) (hargs : operandsOf i = operandsOf j) : i = j :=
  Option.some.inj <| by rw [← instrOf_operandsOf i, hop, hargs, instrOf_operandsOf]

/-! ## The two directions -/

theorem fits_encode (i : Instr) : encode i &&& i.op.mask = i.op.pattern :=
  ReservedZero.of_operand_lt i (operandOf_lt i)

/-- Above the operand numbers of an encoded word stands a multiple of their field's size. -/
theorem encode_toNat_eq_packFields (i : Instr) : (encode i).toNat =
    2 ^ i.op.operandWidths.sum * (i.op.opcode.toNat * 2 ^ (56 - i.op.format.operandBits)) +
      packFields i.op.operandWidths (operandsOf i) := by
  have hle := i.op.format.operandBits_le
  have hpow : 2 ^ i.op.format.operandBits * 2 ^ (56 - i.op.format.operandBits) = 2 ^ 56 := by
    rw [← Nat.pow_add, Nat.add_sub_cancel' (by omega)]
  rw [encode_toNat, operandOf_toNat, Op.sum_operandWidths, Nat.mul_left_comm, hpow]

theorem extract_encode (i : Instr) : extract i.op (encode i) = i :=
  Instr.eq_of_operandsOf (extract_op _ _) <| by
    rw [operandsOf_extract, encode_toNat_eq_packFields, fieldsOf_packFields (operandsOf_fit i)]

theorem decode_encode (i : Instr) : decode (encode i) = .ok i :=
  (decode_eq_ok_iff _ _).2 ⟨i.op, fits_encode i, extract_encode i⟩

/-- A word that fits a row is the row's opcode above the word's own fields. -/
theorem encode_extract {m : Op} {c : Word} (h : c &&& m.mask = m.pattern) : encode (extract m c) = c := by
  apply BitVec.eq_of_toNat_eq
  rw [encode_toNat_eq_packFields, operandsOf_extract, extract_op, packFields_fieldsOf, ← (fits_iff m c).1 h,
    Op.sum_operandWidths, Nat.div_add_mod]

/-! ## Lines of assembly -/

theorem wellFormed_op_iff (m : Op) (xs : List Nat) :
    (AsmLine.op m xs).wellFormed = true ↔ FieldsFit m.operandWidths xs := by
  simp [AsmLine.wellFormed, AsmLine.arityOk, AsmLine.rangeOk, List.forall₂_iff_zip]

theorem wellFormed_word_iff (n : Nat) : (AsmLine.word n).wellFormed = true ↔ n < 2 ^ 64 := by
  simp [AsmLine.wellFormed, AsmLine.arityOk, AsmLine.rangeOk]

theorem assemble_eq_none {l : AsmLine} (h : l.wellFormed = false) : assemble l = none := by
  simp [assemble, h]

/-- Numbers that fit the fields of an operation are the operand numbers of one of its instructions: the one taken from
a word that packs them. -/
theorem exists_operandsOf_eq {m : Op} {xs : List Nat} (h : FieldsFit m.operandWidths xs) :
    ∃ i : Instr, i.op = m ∧ operandsOf i = xs := by
  have hbits : m.operandWidths.sum ≤ 64 :=
    m.sum_operandWidths ▸ m.format.operandBits_le.trans (by decide)
  have hlt : packFields m.operandWidths xs < 2 ^ 64 :=
    (packFields_lt h).trans_le (Nat.pow_le_pow_right (by decide) hbits)
  refine ⟨extract m (BitVec.ofNat 64 (packFields m.operandWidths xs)), extract_op _ _, ?_⟩
  rw [operandsOf_extract, BitVec.toNat_ofNat, Nat.mod_eq_of_lt hlt]
  simpa using fieldsOf_packFields h 0

theorem assemble_op (i : Instr) : assemble (.op i.op (operandsOf i)) = some (encode i) := by
  rw [assemble, if_pos ((wellFormed_op_iff _ _).2 (operandsOf_fit i)), instrOf_operandsOf, Option.map_some]

theorem assemble_word {n : Nat} (h : n < 2 ^ 64) : assemble (.word n) = some (BitVec.ofNat 64 n) := by
  rw [assemble, if_pos ((wellFormed_word_iff n).2 h)]

end Sys2Proof

namespace Sys2Proof.Proofs

open Sys2Proof.Machine

/-- Settles O7: an instruction is its operation and its operand numbers, and taking fields out undoes packing them. -/
theorem decodeOfEncodeIsTheInstruction : Obligations.DecodeOfEncodeIsTheInstruction :=
  decode_encode

/-- Settles O8: packing undoes taking fields out, and a word that fits a row has only the opcode above its fields. -/
theorem encodeOfDecodeIsTheWord : Obligations.EncodeOfDecodeIsTheWord := by
  intro c i h
  obtain ⟨m, hfits, rfl⟩ := (decode_eq_ok_iff c i).1 h
  exact encode_extract hfits

/-- Settles O9: the rows written out are those of the model's map, and a word fits the row of the operation it decodes
to. -/
theorem legalWordsAreThoseOfTheOpcodeMap : Obligations.LegalWordsAreThoseOfTheOpcodeMap := by
  intro row hrow c
  rw [rows_eq_map] at hrow
  obtain ⟨m, -, rfl⟩ := List.mem_map.1 hrow
  constructor
  · intro hfits
    exact ⟨extract m c, decode_of_fits hfits, extract_op m c⟩
  · rintro ⟨i, hd, rfl⟩
    exact fits_of_decode hd

/-- Settles O10: the numbers of a well-formed line are the operand numbers of an instruction of its mnemonic. -/
theorem assemblyLinesGiveTheirInstruction : Obligations.AssemblyLinesGiveTheirInstruction := by
  refine ⟨fun m xs => ⟨fun hwf => ?_, assemble_eq_none⟩, fun n => ⟨fun hn => ?_, fun hn => ?_⟩⟩
  · obtain ⟨i, rfl, rfl⟩ := exists_operandsOf_eq ((wellFormed_op_iff m xs).1 hwf)
    exact ⟨i, assemble_op i, rfl, rfl⟩
  · exact ⟨_, assemble_word hn, Nat.mod_eq_of_lt hn⟩
  · exact assemble_eq_none (Bool.eq_false_iff.2 fun hwf => Nat.not_lt.2 hn ((wellFormed_word_iff n).1 hwf))

/-- Settles O11. -/
theorem writtenWordsDecodeAsTheSpecSays : Obligations.WrittenWordsDecodeAsTheSpecSays :=
  ⟨rfl, rfl, rfl, rfl, rfl, rfl, rfl⟩

/-- Settles O3. -/
theorem stepRunsTheDecodedInstruction : Obligations.StepRunsTheDecodedInstruction :=
  fun _ _ _ _ ⟨hr, hi⟩ hd => (step_command hr hi).trans (execWord_ok hd _)

end Sys2Proof.Proofs

/-! PROOFS. The layout of response words (30_encoding.md R74, R75, R81): of every answer to a word, and of DECP's as the
operand of AGPUSH (R83). -/

namespace Sys2Proof.Machine

theorem errorCode_le (e : ErrorKind) : (errorCode e).toNat ≤ 4 := by cases e <;> decide

/-- The response to a word carries an error's code and no data, or the code of `OK` and the data. -/
theorem execWord_response (c : Word) (s : State) : ∃ (t : State) (code : Byte) (d : Lanes),
    execWord c s = .next t ∧ t.output = s.output ++ [responseWord code d] ∧
    code.toNat ≤ 4 ∧ (code.toNat ≠ 0 → d = 0#48) := by
  cases herr : errorOf c s.agN with
  | some e => exact ⟨_, errorCode e, 0#48, execWord_raises herr, rfl, errorCode_le e, fun _ => rfl⟩
  | none =>
    obtain ⟨i, hd, hok⟩ := decode_of_errorOf_eq_none herr
    exact ⟨_, 0x00#8, okData i s, (execWord_ok hd s).trans (exec_responds hok), by simp, by decide,
      fun hne => absurd rfl hne⟩

theorem responseWord_reservedByte (code : Byte) (d : Lanes) : (responseWord code d).toNat / 2 ^ 48 % 256 = 0 := by
  have := d.isLt
  rw [responseWord_toNat]; omega

theorem responseWord_data (code : Byte) (d : Lanes) : (responseWord code d).toNat % 2 ^ 48 = d.toNat := by
  have := d.isLt
  rw [responseWord_toNat]; omega

/-- Data of an `OK` response under an opcode are that operation's operand: both stand in bits 47:0 (R70, R74). -/
theorem pattern_or_responseWord (m : Op) (d : Lanes) :
    m.pattern ||| responseWord 0x00#8 d = commandWord m.opcode d := by
  have hpattern : m.pattern = m.opcode ++ 0x00#8 ++ 0#48 := by cases m <;> decide
  have hor : (m.opcode ++ 0x00#8 ++ 0#48) ||| (0x00#8 ++ 0x00#8 ++ d) = m.opcode ++ 0x00#8 ++ d := by
    simp only [BitVec.or_append, BitVec.or_zero, BitVec.zero_or]
  rw [hpattern]
  exact hor

theorem fromLittleEndian_eq_ofNat (a b : Byte) : fromLittleEndian a b = BitVec.ofNat 16 (a.toNat + 256 * b.toNat) := by
  rw [← fromLittleEndian_toNat, BitVec.ofNat_toNat, BitVec.setWidth_eq]

end Sys2Proof.Machine

namespace Sys2Proof.Proofs

open Sys2Proof.Machine Sys2Proof.Safety

/-- Settles O16. -/
theorem responseWordsHaveTheCommonLayout : Obligations.ResponseWordsHaveTheCommonLayout := by
  intro s c rest ⟨hr, hi⟩
  obtain ⟨t, code, d, hexec, hout, hle, hdata⟩ := execWord_response c { s with input := rest }
  refine ⟨t, responseWord code d, (step_command hr hi).trans hexec, hout, ?_, responseWord_reservedByte code d, ?_⟩
  · rwa [responseStatus_responseWord]
  · rw [responseStatus_responseWord, responseWord_data]
    intro herr
    rw [hdata herr, BitVec.toNat_zero]

/-- Settles O44: DECP's data are laid out as AGPUSH's operand, so the word is the encoded AGPUSH. -/
theorem decpResponseIsAnAgpushOperand : Obligations.DecpResponseIsAnAgpushOperand := by
  intro w0 w1 w2 w3 w4 w5 s
  refine ⟨_, rfl, ?_⟩
  rw [← fromLittleEndian_eq_ofNat, ← fromLittleEndian_eq_ofNat, ← decode_encode]
  exact congrArg decode (pattern_or_responseWord .agpush _)

end Sys2Proof.Proofs

/-! PROOFS. The codec unit (40_codec.md R90 to R96): numbers as command and response words, the byte lanes of responses,
and taking a 16-bit number into its two bytes and back. -/

namespace Sys2Proof

open Sys2Proof.Safety

/-! ## A number as a command word -/

/-- The number that has an instruction's opcode in bits 63:56 and packs its operands in the low bits is its word. -/
theorem decode_ofNat {i : Instr} {n : Nat}
    (h : n = i.op.opcode.toNat * 2 ^ 56 + packFields i.op.operandWidths (operandsOf i)) :
    decode (BitVec.ofNat 64 n) = .ok i := by
  have hword : BitVec.ofNat 64 n = encode i := by
    rw [h, ← operandOf_toNat, ← encode_toNat, BitVec.ofNat_toNat, BitVec.setWidth_eq]
  rw [hword, decode_encode]

end Sys2Proof

namespace Sys2Proof.Machine

open Sys2Proof.Safety

/-! ## A number as a response word -/

theorem responseWord_ok_toNat (d : Lanes) : (responseWord 0x00#8 d).toNat = d.toNat := by
  rw [responseWord_toNat, BitVec.toNat_ofNat, Nat.zero_mod, Nat.zero_mul, Nat.zero_add]

theorem responseWord_ok_eq_ofNat (d : Lanes) : responseWord 0x00#8 d = BitVec.ofNat 64 d.toNat := by
  rw [← responseWord_ok_toNat, BitVec.ofNat_toNat, BitVec.setWidth_eq]

theorem respond_ofNat {d : Lanes} {n : Nat} (h : d.toNat = n) (s : State) :
    respond d s = .next { s with output := s.output ++ [BitVec.ofNat 64 n] } := by
  rw [respond_eq, responseWord_ok_eq_ofNat, h]

/-- A response tells its data: no other data are answered with the same number. -/
theorem respond_eq_next_ofNat_iff (d : Lanes) (s : State) {n : Nat} (hn : n < 2 ^ 64) :
    respond d s = .next { s with output := s.output ++ [BitVec.ofNat 64 n] } ↔ d.toNat = n := by
  refine ⟨fun h => ?_, fun h => respond_ofNat h s⟩
  have hout : s.output ++ [responseWord 0x00#8 d] = s.output ++ [BitVec.ofNat 64 n] :=
    congrArg State.output (Host.Outcome.next.inj h)
  have hword : responseWord 0x00#8 d = BitVec.ofNat 64 n := List.singleton_inj.1 (List.append_cancel_left hout)
  rw [← responseWord_ok_toNat, hword, BitVec.toNat_ofNat, Nat.mod_eq_of_lt hn]

/-! ## The lanes of a response -/

theorem responseLane_toNat (r : Word) (k : Nat) : (responseLane r k).toNat = r.toNat / 2 ^ (8 * k) % 2 ^ 8 := by
  simp [responseLane, Nat.shiftRight_eq_div_pow]

/-- The lanes of a response are the lanes of its data. -/
theorem responseLane_eq_of_toNat {d : Lanes} {k : Nat} {b : Byte} (h : d.toNat / 2 ^ (8 * k) % 2 ^ 8 = b.toNat) :
    responseLane (responseWord 0x00#8 d) k = b := by
  apply BitVec.eq_of_toNat_eq
  rw [responseLane_toNat, responseWord_ok_toNat, h]

@[simp] theorem responseLane_dataOfBytes2_zero (b0 b1 : Byte) :
    responseLane (responseWord 0x00#8 (dataOfBytes2 b0 b1)) 0 = b0 :=
  responseLane_eq_of_toNat (by rw [dataOfBytes2_toNat]; omega)

@[simp] theorem responseLane_dataOfBytes2_one (b0 b1 : Byte) :
    responseLane (responseWord 0x00#8 (dataOfBytes2 b0 b1)) 1 = b1 :=
  responseLane_eq_of_toNat (by rw [dataOfBytes2_toNat]; omega)

@[simp] theorem responseLane_dataOfBytes4_zero (b0 b1 b2 b3 : Byte) :
    responseLane (responseWord 0x00#8 (dataOfBytes4 b0 b1 b2 b3)) 0 = b0 :=
  responseLane_eq_of_toNat (by rw [dataOfBytes4_toNat]; omega)

@[simp] theorem responseLane_dataOfBytes4_one (b0 b1 b2 b3 : Byte) :
    responseLane (responseWord 0x00#8 (dataOfBytes4 b0 b1 b2 b3)) 1 = b1 :=
  responseLane_eq_of_toNat (by rw [dataOfBytes4_toNat]; omega)

@[simp] theorem responseLane_dataOfBytes4_two (b0 b1 b2 b3 : Byte) :
    responseLane (responseWord 0x00#8 (dataOfBytes4 b0 b1 b2 b3)) 2 = b2 :=
  responseLane_eq_of_toNat (by rw [dataOfBytes4_toNat]; omega)

@[simp] theorem responseLane_dataOfBytes4_three (b0 b1 b2 b3 : Byte) :
    responseLane (responseWord 0x00#8 (dataOfBytes4 b0 b1 b2 b3)) 3 = b3 :=
  responseLane_eq_of_toNat (by rw [dataOfBytes4_toNat]; omega)

/-- Bits 15:0 of a response that carries one 16-bit number. -/
@[simp] theorem extractLsb'_responseWord_dataOfHalf (v : Half) :
    (responseWord 0x00#8 (dataOfHalf v)).extractLsb' 0 16 = v := by
  apply BitVec.eq_of_toNat_eq
  rw [BitVec.extractLsb'_toNat, responseWord_ok_toNat, dataOfHalf_toNat, Nat.shiftRight_zero, Nat.mod_eq_of_lt v.isLt]

/-! ## A 16-bit number and its two bytes -/

@[simp] theorem loByte_fromLittleEndian (a b : Byte) : loByte (fromLittleEndian a b) = a := by
  apply BitVec.eq_of_toNat_eq
  rw [loByte_toNat, fromLittleEndian_toNat]; omega

@[simp] theorem hiByte_fromLittleEndian (a b : Byte) : hiByte (fromLittleEndian a b) = b := by
  apply BitVec.eq_of_toNat_eq
  rw [hiByte_toNat, fromLittleEndian_toNat]; omega

@[simp] theorem fromLittleEndian_loByte_hiByte (v : Half) : fromLittleEndian (loByte v) (hiByte v) = v := by
  apply BitVec.eq_of_toNat_eq
  rw [fromLittleEndian_toNat, loByte_toNat, hiByte_toNat, Nat.mod_add_div]

/-! ## The answers of ENCA and ENCL, as the numbers of R91 and R93 -/

theorem dataOfBytes2_bigEndian_toNat (a : Half) :
    (dataOfBytes2 (hiByte a) (loByte a)).toNat = a.toNat / 256 + 256 * (a.toNat % 256) := by
  simp only [dataOfBytes2_toNat, hiByte_toNat, loByte_toNat, Nat.reducePow]

theorem dataOfBytes2_littleEndian_toNat (v : Half) :
    (dataOfBytes2 (loByte v) (hiByte v)).toNat = v.toNat % 256 + 256 * (v.toNat / 256) := by
  simp only [dataOfBytes2_toNat, loByte_toNat, hiByte_toNat, Nat.reducePow]

end Sys2Proof.Machine

namespace Sys2Proof.Proofs

open Sys2Proof.Machine Sys2Proof.Safety

/-- Settles O29. -/
theorem encaSendsTheHighByteFirst : Obligations.EncaSendsTheHighByteFirst := fun addr =>
  ⟨decode_ofNat (i := .enca addr) rfl, respond_ofNat (dataOfBytes2_bigEndian_toNat addr)⟩

/-- Settles O30. -/
theorem declTakesTheLowByteFirst : Obligations.DeclTakesTheLowByteFirst := by
  intro w0 w1
  constructor
  · apply decode_ofNat
    simp only [Instr.op, Op.opcode, Op.operandWidths, operandsOf, packFields, BitVec.toNat_ofNat]; omega
  · have hdata : (dataOfHalf (fromLittleEndian w0 w1)).toNat = w0.toNat + 256 * w1.toNat := by
      rw [dataOfHalf_toNat, fromLittleEndian_toNat]
    exact respond_ofNat hdata

/-- Settles O31: the two lanes are the value's own bytes, and DECL joins them again. -/
theorem enclSendsTheLowByteFirst : Obligations.EnclSendsTheLowByteFirst := by
  refine fun v => ⟨decode_ofNat (i := .encl v) rfl, fun s => ⟨_, rfl, ?_, ?_⟩⟩
  · exact (responseWord_ok_toNat _).trans (dataOfBytes2_littleEndian_toNat v)
  · simp only [littleEndianBytes, responseLane_dataOfBytes2_zero, responseLane_dataOfBytes2_one]
    have hdata : (dataOfHalf (fromLittleEndian (loByte v) (hiByte v))).toNat = v.toNat := by
      rw [fromLittleEndian_loByte_hiByte, dataOfHalf_toNat]
    exact respond_ofNat hdata s

/-- Settles O32. -/
theorem rev4ReversesTheBytes : Obligations.Rev4ReversesTheBytes := by
  intro w0 w1 w2 w3
  constructor
  · apply decode_ofNat
    simp only [Instr.op, Op.opcode, Op.operandWidths, operandsOf, packFields, BitVec.toNat_ofNat]; omega
  · exact respond_ofNat (dataOfBytes4_toNat w3 w2 w1 w0)

/-- Settles O33: the data are made from the first four bytes alone. -/
theorem decpDecodesThePointIgnoringTheTail : Obligations.DecpDecodesThePointIgnoringTheTail := by
  intro w0 w1 w2 w3 w4 w5
  constructor
  · apply decode_ofNat
    simp only [Instr.op, Op.opcode, Op.operandWidths, operandsOf, packFields, BitVec.toNat_ofNat]; omega
  · have hdata : (dataOfPoint (fromLittleEndian w0 w1) (fromLittleEndian w2 w3)).toNat =
        (w0.toNat + 256 * w1.toNat) + 2 ^ 16 * (w2.toNat + 256 * w3.toNat) := by
      rw [dataOfPoint_toNat, fromLittleEndian_toNat, fromLittleEndian_toNat]
    exact respond_ofNat hdata

/-- Settles O40: the address whose high byte is lane 0 and whose low byte is lane 1. -/
theorem encaIsABijection : Obligations.EncaIsABijection := by
  intro b0 b1
  refine ⟨fromLittleEndian b1 b0, fun a s => ?_⟩
  calc exec (.enca a) s = .next { s with output := s.output ++ [BitVec.ofNat 64 (b0.toNat + 256 * b1.toNat)] }
    _ ↔ (dataOfBytes2 (hiByte a) (loByte a)).toNat = b0.toNat + 256 * b1.toNat :=
      respond_eq_next_ofNat_iff _ s (by omega)
    _ ↔ a.toNat = b1.toNat + 256 * b0.toNat := by rw [dataOfBytes2_bigEndian_toNat]; omega
    _ ↔ a = fromLittleEndian b1 b0 := by rw [← fromLittleEndian_toNat, BitVec.toNat_inj]

/-- Settles O41: ENCL takes DECL's number apart into the bytes it was joined from. -/
theorem enclOfDeclGivesTheBytesBack : Obligations.EnclOfDeclGivesTheBytesBack := by
  intro w0 w1 s
  refine ⟨_, _, rfl, rfl, ?_, ?_⟩
  · rw [responseLane_dataOfBytes2_zero, extractLsb'_responseWord_dataOfHalf]
    exact loByte_fromLittleEndian w0 w1
  · rw [responseLane_dataOfBytes2_one, extractLsb'_responseWord_dataOfHalf]
    exact hiByte_fromLittleEndian w0 w1

/-- Settles O42: reversing four lanes twice puts each byte back in its lane. -/
theorem rev4TwiceGivesTheBytesBack : Obligations.Rev4TwiceGivesTheBytesBack := by
  intro w0 w1 w2 w3 s
  refine ⟨_, _, rfl, rfl, ?_, ?_, ?_, ?_⟩ <;> simp

/-- Settles O43: lane 0 of ENCA's answer and lane 1 of ENCL's are the number's high byte, the other two its low byte. -/
theorem encaAndEnclSwapLanes : Obligations.EncaAndEnclSwapLanes := by
  intro n s
  refine ⟨_, _, rfl, rfl, ?_, ?_⟩
  · rw [responseLane_dataOfBytes2_zero, responseLane_dataOfBytes2_one]
    rfl
  · rw [responseLane_dataOfBytes2_zero, responseLane_dataOfBytes2_one]
    rfl

end Sys2Proof.Proofs

/-! PROOFS. The checksum unit (41_checksum.md R110 to R115): the byte of CKGET is the additive inverse of `CK.ACC`, so
bytes with their checksum sum to zero modulo 256, and `CK.ACC` and `CK.CNT` depend on what is pushed and not on its
order. -/

namespace Sys2Proof.Machine

open Sys2Proof.Safety

/-! ## The two accumulators and the checksum byte -/

theorem checksumAdd_eq_ofNat (acc b : Byte) : checksumAdd acc b = BitVec.ofNat 8 ((acc.toNat + b.toNat) % 256) := by
  rw [← checksumAdd_toNat, BitVec.ofNat_toNat, BitVec.setWidth_eq]

theorem countUp_eq_ofNat (cnt : Byte) : countUp cnt = BitVec.ofNat 8 (min (cnt.toNat + 1) 255) := by
  rw [← countUp_toNat, BitVec.ofNat_toNat, BitVec.setWidth_eq]

/-- The closed form of R112 is the additive inverse. -/
theorem add_checksumOf_mod (acc : Byte) : (acc.toNat + (checksumOf acc).toNat) % 256 = 0 := by
  have := acc.isLt
  rw [checksumOf_toNat]; omega

@[simp] theorem checksumAdd_checksumOf (acc : Byte) : checksumAdd acc (checksumOf acc) = 0x00#8 := by
  rw [checksumAdd_eq_ofNat, add_checksumOf_mod]

/-- Bits 7:0 of CKGET's answer. -/
@[simp] theorem responseLane_dataOfChecksum_zero (c n : Byte) :
    responseLane (responseWord 0x00#8 (dataOfChecksum c n)) 0 = c :=
  responseLane_eq_of_toNat (by rw [dataOfChecksum_toNat]; omega)

/-! ## The registers after pushes -/

theorem State.afterPushes_ckAcc (s : State) (bs : List Byte) (rest : List HostEvent) :
    (s.afterPushes bs rest).ckAcc = BitVec.ofNat 8 ((s.ckAcc.toNat + (bs.map BitVec.toNat).sum) % 256) :=
  foldl_checksumAdd bs s.ckAcc

theorem State.afterPushes_ckCnt (s : State) (bs : List Byte) (rest : List HostEvent) :
    (s.afterPushes bs rest).ckCnt = BitVec.ofNat 8 (min (s.ckCnt.toNat + bs.length) 255) :=
  foldl_countUp bs s.ckCnt

/-- The two registers depend on the bytes' sum and on their number, which a permutation keeps (R115 (b)). -/
theorem State.afterPushes_sameChecksum_of_perm {s₁ s₂ : State} {bs₁ bs₂ : List Byte} (hperm : bs₁.Perm bs₂)
    (hsame : SameChecksum s₁ s₂) (rest₁ rest₂ : List HostEvent) :
    SameChecksum (s₁.afterPushes bs₁ rest₁) (s₂.afterPushes bs₂ rest₂) := by
  obtain ⟨hacc, hcnt⟩ := hsame
  have hsum : (bs₁.map BitVec.toNat).sum = (bs₂.map BitVec.toNat).sum := (hperm.map _).sum_eq
  constructor
  · rw [State.afterPushes_ckAcc, State.afterPushes_ckAcc, hacc, hsum]
  · rw [State.afterPushes_ckCnt, State.afterPushes_ckCnt, hcnt, hperm.length_eq]

end Sys2Proof.Machine

namespace Sys2Proof.Gt911

open Sys2Proof.Machine

/-! ## The sum of a list of bytes -/

theorem sumBytes_toNat (bs : List Byte) : (sumBytes bs).toNat = (bs.map BitVec.toNat).sum % 256 := by
  rw [sumBytes, foldl_checksumAdd, BitVec.toNat_ofNat, BitVec.toNat_ofNat]; omega

/-- Bytes and their checksum sum to zero (R114). -/
theorem sumBytes_append_checksum (bs : List Byte) : sumBytes (bs ++ [checksumOf (sumBytes bs)]) = 0x00#8 := by
  rw [sumBytes, List.foldl_append]
  exact checksumAdd_checksumOf (sumBytes bs)

/-! ## `CKSUM` and what it leaves -/

/-- After `CKSUM` the block is ready for the next command, holds the sum and the number of the bytes, and its last
response is CKGET's word of the two. -/
theorem run_cksum_registers {s : State} {bs : List Byte} {rest : List HostEvent} (hr : s.inReset = false)
    (hi : s.input = present (cksum bs) ++ rest) :
    ∃ t : State, Host.Core.run Sys2Proof.core (bs.length + 2) s = .next t ∧ t.inReset = false ∧ t.input = rest ∧
      t.ckAcc = sumBytes bs ∧ t.ckCnt = BitVec.ofNat 8 (min bs.length 255) ∧
      t.output.getLast? = some t.ckgetWord := by
  have hcnt : ((s.afterCkclr rest).afterPushes bs rest).ckCnt = BitVec.ofNat 8 (min bs.length 255) := by
    rw [State.afterPushes_ckCnt, State.afterCkclr, BitVec.toNat_ofNat, Nat.zero_mod, Nat.zero_add]
  exact ⟨_, run_cksum hr hi, hr, rfl, rfl, hcnt, List.getLast?_concat⟩

end Sys2Proof.Gt911

namespace Sys2Proof.Proofs

open Sys2Proof.Machine Sys2Proof.Safety Sys2Proof.Gt911

/-- Settles O34. -/
theorem ckclrStartsANewChecksum : Obligations.CkclrStartsANewChecksum :=
  ⟨decode_ofNat (i := .ckclr) rfl, fun s => respond_ofNat rfl s.clearChecksum⟩

/-- Settles O35. -/
theorem ckpushAddsAndCounts : Obligations.CkpushAddsAndCounts := by
  refine fun b => ⟨decode_ofNat (i := .ckpush b) rfl, fun s => ?_⟩
  rw [← checksumAdd_eq_ofNat, ← countUp_eq_ofNat]
  exact respond_ofNat rfl _

/-- Settles O36: the checksum byte's number, with the two forms R112 gives it. -/
theorem ckgetReturnsTheAdditiveInverse : Obligations.CkgetReturnsTheAdditiveInverse := by
  refine ⟨decode_ofNat (i := .ckget) rfl, fun s => ⟨(checksumOf s.ckAcc).toNat, BitVec.isLt _, ?_,
    checksumOf_toNat _, add_checksumOf_mod _, respond_ofNat (dataOfChecksum_toNat _ _) s⟩⟩
  have := s.ckAcc.isLt
  rw [checksumOf_toNat]; omega

/-- Settles O45: lane 0 of the response is the additive inverse of the sum it is pushed onto. -/
theorem pushingTheChecksumZeroesTheSum : Obligations.PushingTheChecksumZeroesTheSum := by
  refine fun s => ⟨_, _, _, rfl, rfl, rfl, ?_⟩
  rw [responseLane_dataOfChecksum_zero]
  exact checksumAdd_checksumOf s.ckAcc

/-- Settles O47: `CKVFY` is the run of `CKSUM` over the payload and its checksum byte, whose sum is zero. -/
theorem blobInvariantIsVerifiedByCkvfy : Obligations.BlobInvariantIsVerifiedByCkvfy := by
  intro s p c rest hr hlength hi
  obtain ⟨t, hrun, hrt, hit, hacc, -, hlast⟩ := run_cksum_registers hr (hi.trans (List.append_assoc _ _ _))
  refine ⟨t, t.ckgetWord, hrun, hlast, fun hc => ?_⟩
  have hbyte : c = checksumOf (sumBytes p) := by
    rw [hc, State.ckgetWord, responseLane_dataOfChecksum_zero, hacc]
  have hzero : sumBytes (p ++ [c]) = 0x00#8 := hbyte ▸ sumBytes_append_checksum p
  have hlength' : (p ++ [c]).length = 185 := by rw [List.length_append, hlength]; rfl
  obtain ⟨u, hrun', -, -, hacc', hcnt', hlast'⟩ := run_cksum_registers (bs := p ++ [c]) hrt hit
  rw [hzero] at hacc'
  rw [hlength'] at hcnt'
  refine ⟨?_, u, ?_, ?_, hacc'⟩
  · rw [← sumBytes_toNat, hzero]; rfl
  · rwa [List.length_append] at hrun'
  · rw [hlast', State.ckgetWord_eq, hacc', hcnt']; rfl

/-- Settles O49: the runs of pushes end in states that tell the sum and the number of the bytes, not their order. -/
theorem checksumIgnoresTheOrderOfPushes : Obligations.ChecksumIgnoresTheOrderOfPushes := by
  intro s₁ s₂ bs₁ bs₂ rest₁ rest₂ hperm hr₁ hr₂ hsame hi₁ hi₂
  exact ⟨_, _, run_pushes hr₁ hi₁, run_pushes hr₂ hi₂, State.afterPushes_sameChecksum_of_perm hperm hsame _ _⟩

end Sys2Proof.Proofs

/-! PROOFS. The aggregator unit (42_aggregator.md R125 to R130): the sums and the number after pushes, AGMEAN's word of
them, and the mean of 1 to 15 points between the bounds of the pushed values. -/

namespace Sys2Proof.Machine

/-! ## The count and the sums as numbers -/

theorem toNat_lt_of_ne_fifteen {n : Nibble} (h : n ≠ 15#4) : n.toNat < 15 := by
  have : n.toNat ≠ 15 := fun e => h (BitVec.eq_of_toNat_eq e)
  omega

theorem ne_fifteen_of_toNat_lt {n : Nibble} (h : n.toNat < 15) : n ≠ 15#4 := fun e => by simp [e] at h

theorem add_one_eq_ofNat (n : Nibble) : n + 1#4 = BitVec.ofNat 4 (n.toNat + 1) := by
  rw [BitVec.ofNat_add, BitVec.ofNat_toNat, BitVec.setWidth_eq]

theorem sumAdd_eq_add_ofNat (a : Sum) (v : Half) : sumAdd a v = a + BitVec.ofNat 20 v.toNat := by
  rw [BitVec.ofNat_toNat, sumAdd]

/-- The sum of one coordinate of the points; `f` is the projection to it. -/
def coordSum (f : Half × Half → Half) (ps : List (Half × Half)) : Nat :=
  (ps.map fun p => (f p).toNat).sum

/-- The mean of one coordinate lies between any bounds of its values (R130 (c)). -/
theorem coordSum_div_bounds {f : Half × Half → Half} {ps : List (Half × Half)} {lo hi : Nat}
    (hpos : 1 ≤ ps.length) (h : ∀ p ∈ ps, lo ≤ (f p).toNat ∧ (f p).toNat ≤ hi) :
    lo ≤ coordSum f ps / ps.length ∧ coordSum f ps / ps.length ≤ hi := by
  have hlo : ps.length * lo ≤ coordSum f ps := by
    simpa [coordSum] using List.card_nsmul_le_sum (ps.map fun p => (f p).toNat) lo
      (List.forall_mem_map.2 fun p hp => (h p hp).1)
  have hhi : coordSum f ps ≤ ps.length * hi := by
    simpa [coordSum] using List.sum_le_card_nsmul (ps.map fun p => (f p).toNat) hi
      (List.forall_mem_map.2 fun p hp => (h p hp).2)
  exact ⟨(Nat.le_div_iff_mul_le hpos).2 (Nat.mul_comm _ _ ▸ hlo), Nat.div_le_of_le_mul hhi⟩

/-- The bound of R23 on the sum of one coordinate. -/
theorem coordSum_le (f : Half × Half → Half) (ps : List (Half × Half)) : coordSum f ps ≤ 65535 * ps.length := by
  simpa [coordSum, Nat.mul_comm] using List.sum_le_card_nsmul (ps.map fun p => (f p).toNat) 65535
    (List.forall_mem_map.2 fun p _ => Nat.le_of_lt_succ (f p).isLt)

/-- The sum of at most 15 points, added to a cleared register, does not wrap. -/
theorem toNat_zero_add_coordSum (f : Half × Half → Half) {ps : List (Half × Half)}
    (hle : ps.length ≤ 15) :
    (0#20 + BitVec.ofNat 20 (coordSum f ps)).toNat = coordSum f ps := by
  have := coordSum_le f ps
  rw [BitVec.zero_add, BitVec.toNat_ofNat]; omega

/-- A register that holds the sum of one coordinate and one that holds the number give its mean (R127). -/
theorem meanOf_coordSum {f : Half × Half → Half} {ps : List (Half × Half)} {a : Sum} {n : Nibble}
    (ha : a.toNat = coordSum f ps) (hn : n.toNat = ps.length) :
    (meanOf a n).toNat = coordSum f ps / ps.length := by
  have hbound : a.toNat ≤ 65535 * n.toNat := by
    rw [ha, hn]
    exact coordSum_le f ps
  rw [meanOf_exact a n hbound, ha, hn]

/-! ## The fields of AGMEAN's data -/

theorem dataOfMean_meanX (x y : Half) (n : Nibble) : (dataOfMean x y n).toNat % 2 ^ 16 = x.toNat := by
  rw [dataOfMean_toNat]; omega

theorem dataOfMean_meanY (x y : Half) (n : Nibble) : (dataOfMean x y n).toNat / 2 ^ 16 % 2 ^ 16 = y.toNat := by
  rw [dataOfMean_toNat]; omega

/-! ## Runs of AGPUSH -/

/-- The pushes of `AVG` (R83). -/
abbrev pushPoints (ps : List (Half × Half)) : List Instr :=
  ps.map fun p => .agpush p.1 p.2

/-- The state after a push of each of the points `ps`, with `rest` left to come. -/
def State.afterPoints (s : State) (ps : List (Half × Half)) (rest : List HostEvent) : State :=
  { s with
    agSx := s.agSx + BitVec.ofNat 20 (coordSum Prod.fst ps)
    agSy := s.agSy + BitVec.ofNat 20 (coordSum Prod.snd ps)
    agN := s.agN + BitVec.ofNat 4 ps.length
    input := rest
    output := s.output ++ List.replicate ps.length 0x0000000000000000#64 }

theorem exec_agpush_eq_afterPoints (p : Half × Half) {s : State} (hroom : s.agN ≠ 15#4) (rest : List HostEvent) :
    exec (.agpush p.1 p.2) { s with input := rest } = .next (s.afterPoints [p] rest) := by
  refine (execAgpush_room p.1 p.2 { s with input := rest } hroom).trans ?_
  simp only [sumAdd_eq_add_ofNat]
  rfl

theorem State.afterPoints_nil (s : State) : s.afterPoints [] s.input = s := by
  simp [State.afterPoints, coordSum]

theorem State.afterPoints_afterPoints (s : State) (ps ps' : List (Half × Half)) (mid rest : List HostEvent) :
    (s.afterPoints ps mid).afterPoints ps' rest = s.afterPoints (ps ++ ps') rest := by
  simp [State.afterPoints, coordSum, BitVec.ofNat_add, BitVec.add_assoc]

theorem State.afterPoints_agN (s : State) (ps : List (Half × Half)) (rest : List HostEvent)
    (hroom : s.agN.toNat + ps.length ≤ 15) : (s.afterPoints ps rest).agN.toNat = s.agN.toNat + ps.length := by
  rw [State.afterPoints, BitVec.toNat_add, BitVec.toNat_ofNat]; omega

/-- Points for which there is room are all pushed. -/
theorem run_points {s : State} {ps : List (Half × Half)} {rest : List HostEvent} (hr : s.inReset = false)
    (hroom : s.agN.toNat + ps.length ≤ 15)
    (hi : s.input = present (pushPoints ps) ++ rest) :
    Host.Core.run Sys2Proof.core ps.length s = .next (s.afterPoints ps rest) := by
  induction ps generalizing s with
  | nil =>
    obtain rfl : s.input = rest := hi
    exact congrArg _ s.afterPoints_nil.symm
  | cons p ps ih =>
    rw [List.length_cons] at hroom
    have hpush : step s = .next (s.afterPoints [p] (present (pushPoints ps) ++ rest)) :=
      (step_present hr hi (decode_encode _)).trans
        (exec_agpush_eq_afterPoints p (ne_fifteen_of_toNat_lt (by omega)) _)
    have hcount : (s.afterPoints [p] (present (pushPoints ps) ++ rest)).agN.toNat = s.agN.toNat + 1 :=
      s.afterPoints_agN [p] _ (by rw [List.length_singleton]; omega)
    have hrest := (run_succ ps.length hpush).trans (ih hr (by omega) rfl)
    rwa [State.afterPoints_afterPoints, List.singleton_append] at hrest

/-! ## AGCLR, pushes, AGMEAN -/

/-- The state after AGCLR, with `rest` left to come. -/
def State.afterAgclr (s : State) (rest : List HostEvent) : State :=
  { s with agSx := 0#20, agSy := 0#20, agN := 0#4, input := rest, output := s.output ++ [0x0000000000000000#64] }

/-- The data AGMEAN answers with a point held. -/
def State.agmeanData (s : State) : Lanes :=
  dataOfMean (meanOf s.agSx s.agN) (meanOf s.agSy s.agN) s.agN

/-- The state after AGCLR and a push of each of the points `ps`, with `rest` left to come. -/
def State.aggregated (s : State) (ps : List (Half × Half)) (rest : List HostEvent) : State :=
  (s.afterAgclr rest).afterPoints ps rest

section Aggregated

variable (s : State) {ps : List (Half × Half)} (rest : List HostEvent)

theorem State.aggregated_agN (hle : ps.length ≤ 15) : (s.aggregated ps rest).agN.toNat = ps.length := by
  have h := (s.afterAgclr rest).afterPoints_agN ps rest (by rw [State.afterAgclr, BitVec.toNat_ofNat]; omega)
  rwa [State.afterAgclr, BitVec.toNat_ofNat, Nat.zero_mod, Nat.zero_add] at h

theorem State.aggregated_agSx (hle : ps.length ≤ 15) : (s.aggregated ps rest).agSx.toNat = coordSum Prod.fst ps :=
  toNat_zero_add_coordSum Prod.fst hle

theorem State.aggregated_agSy (hle : ps.length ≤ 15) : (s.aggregated ps rest).agSy.toNat = coordSum Prod.snd ps :=
  toNat_zero_add_coordSum Prod.snd hle

/-- The mean of the x values (R128). -/
theorem State.aggregated_meanX (hle : ps.length ≤ 15) :
    (meanOf (s.aggregated ps rest).agSx (s.aggregated ps rest).agN).toNat = coordSum Prod.fst ps / ps.length :=
  meanOf_coordSum (s.aggregated_agSx rest hle) (s.aggregated_agN rest hle)

/-- The mean of the y values (R128). -/
theorem State.aggregated_meanY (hle : ps.length ≤ 15) :
    (meanOf (s.aggregated ps rest).agSy (s.aggregated ps rest).agN).toNat = coordSum Prod.snd ps / ps.length :=
  meanOf_coordSum (s.aggregated_agSy rest hle) (s.aggregated_agN rest hle)

theorem State.aggregated_agmeanData (hle : ps.length ≤ 15) : (s.aggregated ps rest).agmeanData.toNat =
    coordSum Prod.fst ps / ps.length + 2 ^ 16 * (coordSum Prod.snd ps / ps.length) + 2 ^ 32 * ps.length := by
  rw [State.agmeanData, dataOfMean_toNat, s.aggregated_meanX rest hle, s.aggregated_meanY rest hle,
    s.aggregated_agN rest hle]

end Aggregated

/-- The run of `AVG` (R83) over 1 to 15 points: AGCLR, the pushes, AGMEAN. -/
theorem run_avg {s : State} {ps : List (Half × Half)} {rest : List HostEvent} (hr : s.inReset = false)
    (hpos : 1 ≤ ps.length) (hle : ps.length ≤ 15) (hi : s.input = present (avg ps) ++ rest) :
    Host.Core.run Sys2Proof.core (ps.length + 2) s =
      .next ((s.aggregated ps rest).emit (responseWord 0x00#8 (s.aggregated ps rest).agmeanData)) := by
  have hsplit : present (pushPoints ps ++ [.agmean]) ++ rest =
      present (pushPoints ps) ++ (present [.agmean] ++ rest) := by
    simp [present]
  have hclear : step s =
      .next (s.afterAgclr (present (pushPoints ps) ++ (present [.agmean] ++ rest))) :=
    hsplit ▸ step_present hr hi (decode_encode .agclr)
  have hpush := run_points (s := s.afterAgclr _) (ps := ps) (rest := present [.agmean] ++ rest) hr
    (by rw [State.afterAgclr, BitVec.toNat_ofNat]; omega) rfl
  have hheld : (s.aggregated ps rest).agN ≠ 0#4 := fun h => by
    have hn := s.aggregated_agN rest hle
    rw [h, BitVec.toNat_ofNat] at hn; omega
  have hmean := (step_present (s := (s.afterAgclr _).afterPoints ps (present [.agmean] ++ rest)) hr rfl
    (decode_encode .agmean)).trans (execAgmean_some _ hheld)
  exact (run_succ _ hclear).trans ((run_add _ 1 hpush).trans (run_succ 0 hmean))

end Sys2Proof.Machine

namespace Sys2Proof.Proofs

open Sys2Proof.Machine Sys2Proof.Safety

/-- Settles O37. -/
theorem agclrStartsANewAggregation : Obligations.AgclrStartsANewAggregation :=
  ⟨decode_ofNat (i := .agclr) rfl, fun s => respond_ofNat rfl s.clearAggregator⟩

/-- Settles O38: the two paths of AGPUSH; under the bound of R23 neither sum wraps. -/
theorem agpushAddsOnePointOrAnswersFull : Obligations.AgpushAddsOnePointOrAnswersFull := by
  refine fun x y => ⟨?_, execAgpush_full x y, fun s hroom => ⟨sumAdd s.agSx x, sumAdd s.agSy y, ?_, ?_⟩⟩
  · apply decode_ofNat
    simp only [Instr.op, Op.opcode, Op.operandWidths, operandsOf, packFields, BitVec.toNat_ofNat]; omega
  · rw [← add_one_eq_ofNat]
    exact execAgpush_room x y s hroom
  · rintro ⟨hsx, hsy⟩
    have hlt := toNat_lt_of_ne_fifteen hroom
    exact ⟨sumAdd_exact _ _ _ hsx hlt, sumAdd_exact _ _ _ hsy hlt⟩

/-- Settles O39: the two paths of AGMEAN; under the bound of R23 each quotient fits 16 bits. -/
theorem agmeanReturnsTheMeanOrAnswersEmpty : Obligations.AgmeanReturnsTheMeanOrAnswersEmpty :=
  ⟨decode_ofNat (i := .agmean) rfl, execAgmean_none, fun s hheld => ⟨meanOf s.agSx s.agN, meanOf s.agSy s.agN,
    (execAgmean_some s hheld).trans (respond_ofNat (dataOfMean_toNat _ _ _) s),
    fun ⟨hsx, hsy⟩ => ⟨meanOf_exact _ _ hsx, meanOf_exact _ _ hsy⟩⟩⟩

/-- Settles O50: the run of `AVG`, with AGMEAN's data as a number. -/
theorem meanOfAnyPushedPoints : Obligations.MeanOfAnyPushedPoints := by
  intro s ps rest hr hpos hle hi
  refine ⟨_, run_avg hr hpos hle hi, s.aggregated_agSx rest hle, s.aggregated_agSy rest hle,
    s.aggregated_agN rest hle, ?_⟩
  rw [responseWord_ok_eq_ofNat, s.aggregated_agmeanData rest hle]
  simp [State.aggregated, State.afterPoints, State.afterAgclr, State.emit, coordSum, List.replicate_succ]

/-- Settles O51: bits 15:0 and 31:16 of the response to AGMEAN are the means of the sums. -/
theorem meanLiesBetweenThePushedValues : Obligations.MeanLiesBetweenThePushedValues := by
  intro s ps rest lo hi hr hpos hle hin
  refine ⟨_, responseWord 0x00#8 (s.aggregated ps rest).agmeanData, run_avg hr hpos hle hin, List.getLast?_concat,
    responseStatus_responseWord _ _, fun h => ?_, fun h => ?_⟩
  · rw [responseWord_ok_toNat, State.agmeanData, dataOfMean_meanX, s.aggregated_meanX rest hle]
    exact coordSum_div_bounds hpos h
  · rw [responseWord_ok_toNat, State.agmeanData, dataOfMean_meanY, s.aggregated_meanY rest hle]
    exact coordSum_div_bounds hpos h

end Sys2Proof.Proofs

/-! PROOFS. The operations on the block as a whole (43_system.md R140 to R142): each responds, with zero data or with
`STATUS`, and RST alone writes registers first. -/

namespace Sys2Proof.Proofs

open Sys2Proof.Machine

/-- Settles O28: RDST responds from the state it found, and its data are `STATUS` as a number. -/
theorem rdstReadsTheFlagsWithoutClearing : Obligations.RdstReadsTheFlagsWithoutClearing :=
  ⟨decode_ofNat (i := .rdst) rfl, fun s => respond_ofNat (dataOfByte_statusByte_toNat s.status) s⟩

/-- Settles O26: NOP responds with zero data from the state it found. -/
theorem nopAnswersAndChangesNothing : Obligations.NopAnswersAndChangesNothing :=
  ⟨decode_ofNat (i := .nop) rfl, respond_ofNat rfl⟩

/-- Settles O27: RST responds with zero data from the state `clearRegisters` leaves. -/
theorem rstZeroesEveryRegister : Obligations.RstZeroesEveryRegister :=
  ⟨decode_ofNat (i := .rst) rfl, fun s => respond_ofNat rfl s.clearRegisters⟩

end Sys2Proof.Proofs

/-! PROOFS. Errors (60_exceptions.md R151 to R158): a presented word that raises one is answered with it and leaves its
sticky bit, the decoder's errors before an instruction's own; so a run that ends with `STATUS` zero met none. -/

namespace Sys2Proof.Machine

open Sys2Proof.Safety

/-! ## A step with and without an error -/

/-- With nothing presented the block is idle. -/
theorem step_nil {s : State} (h : s.input = []) : step s = idle s := by
  simp [step, takeEvent, h]

/-- The error of a presented word is raised in the state without the word. -/
theorem step_raises {s : State} {c : Word} {rest : List HostEvent} {e : ErrorKind} (hp : Presented s c rest)
    (h : errorOf c s.agN = some e) : step s = raise e { s with input := rest } := by
  obtain ⟨hr, hi⟩ := hp
  exact (step_command hr hi).trans (execWord_raises h)

/-- A presented word without an error is an instruction, which completes in the state without the word. -/
theorem step_responds {s : State} {c : Word} {rest : List HostEvent} (hp : Presented s c rest)
    (h : errorOf c s.agN = none) :
    ∃ i, step s = respond (okData i { s with input := rest }) (okState i { s with input := rest }) := by
  obtain ⟨hr, hi⟩ := hp
  obtain ⟨i, hd, hok⟩ := decode_of_errorOf_eq_none h
  exact ⟨i, (step_command hr hi).trans ((execWord_ok hd _).trans (exec_responds hok))⟩

/-- A word with a row's opcode that does not fit the row raises `E_RSVD`, however many points are held. -/
theorem errorOf_eq_rsvd_of_not_fits {m : Op} {c : Word} (hop : c.toNat / 2 ^ 56 = m.opcode.toNat)
    (hfit : c &&& m.mask ≠ m.pattern) (n : Nibble) : errorOf c n = some .rsvd :=
  (errorOf_eq_decodeErrorKind_iff c n .rsvd).2
    ((decode_eq_rsvd_iff c).2 ⟨m, (opcode_eq_opcodeField_iff m c).2 hop, hfit⟩)

/-! ## The code of an error and its flag -/

theorem flagBit_lt (e : ErrorKind) : flagBit e < 4 := by cases e <;> decide

/-- Codes 1 to 4 belong to flags 0 to 3, in this order (R150). -/
theorem errorWord_toNat_eq_flagBit (e : ErrorKind) : (errorWord e).toNat = (flagBit e + 1) * 2 ^ 56 := by
  rw [errorWord_toNat]
  cases e <;> rfl

theorem errorFlag_eq_ofNat (e : ErrorKind) : errorFlag e = BitVec.ofNat 4 (2 ^ flagBit e) := by cases e <;> rfl

theorem setSticky_ne_zero (e : ErrorKind) (f : Nibble) : setSticky e f ≠ 0#4 := by
  intro hzero
  have hset : (setSticky e f).getLsbD (flagBit e) = true := (setSticky_getLsbD e e f).2 (.inr rfl)
  simp [hzero] at hset

/-! ## Runs that end with `STATUS` zero -/

/-- A word other than RST's that leaves `STATUS` zero found it zero and was answered `OK`. -/
theorem execWord_status_zero {c : Word} {s t : State} (hrst : c ≠ Op.rst.pattern) (h : execWord c s = .next t) :
    ∃ r, t.output = s.output ++ [r] ∧ (t.status = 0#4 → s.status = 0#4 ∧ responseStatus r = 0) := by
  obtain ⟨e, h⟩ | ⟨i, hd, h⟩ := execWord_next_cases h
  · cases h
    exact ⟨errorWord e, rfl, fun hzero => absurd hzero (setSticky_ne_zero e s.status)⟩
  · cases h
    have hi : i ≠ .rst := fun h => hrst ((decode_eq_rst_iff c).1 (h ▸ hd))
    refine ⟨responseWord 0x00#8 (okData i s), by simp, fun hzero => ⟨?_, responseStatus_responseWord _ _⟩⟩
    simpa [okState_status, hi] using hzero

/-- No RST word is still to come; the words so far, of `n` in all, were answered once each since `s₀`, and if `STATUS`
is zero now, it was zero in `s₀` and each of them was answered `OK`. -/
def AnsweredSince (s₀ : State) (n : Nat) (ws : List Word) (s : State) : Prop :=
  (∀ w ∈ ws, w ≠ Op.rst.pattern) ∧ ∃ rs : List Word, s.output = s₀.output ++ rs ∧ rs.length + ws.length = n ∧
    (s.status = 0#4 → s₀.status = 0#4 ∧ ∀ r ∈ rs, responseStatus r = 0)

theorem execWord_keeps_answeredSince {s₀ : State} {n : Nat} {w : Word} {ws : List Word} {s t : State}
    (hP : AnsweredSince s₀ n (w :: ws) s) (h : execWord w s = .next t) : AnsweredSince s₀ n ws t := by
  obtain ⟨hws, rs, hout, hlen, hzero⟩ := hP
  obtain ⟨hrst, hws⟩ := List.forall_mem_cons.1 hws
  obtain ⟨r, hr, hzero'⟩ := execWord_status_zero hrst h
  refine ⟨hws, rs ++ [r], by rw [hr, hout, List.append_assoc], ?_, fun ht => ?_⟩
  · rw [List.length_cons] at hlen
    rw [List.length_append, List.length_singleton]
    omega
  · obtain ⟨hs, hok⟩ := hzero' ht
    obtain ⟨hs₀, hoks⟩ := hzero hs
    exact ⟨hs₀, List.forall_mem_append.2 ⟨hoks, List.forall_mem_singleton.2 hok⟩⟩

end Sys2Proof.Machine

namespace Sys2Proof.Proofs

open Sys2Proof.Machine Sys2Proof.Safety

/-- Settles O12: an opcode outside the map is the cause of `E_ILLOP`. -/
theorem unknownOpcodeAnswersIllop : Obligations.UnknownOpcodeAnswersIllop :=
  fun s c _ hp hop => step_raises hp ((errorOf_eq_illop_iff c s.agN).2 hop)

/-- Settles O13: not fitting the row of its opcode is the cause of `E_RSVD`. -/
theorem reservedBitAnswersRsvd : Obligations.ReservedBitAnswersRsvd := by
  rw [Obligations.ReservedBitAnswersRsvd, rows_eq_map, List.forall_mem_map]
  intro m _ c hop
  refine ⟨?_, fun s rest hp hfit => step_raises hp (errorOf_eq_rsvd_of_not_fits hop hfit s.agN)⟩
  rw [ne_eq, fits_iff_reserved_zero hop, not_and_or]

/-- Settles O14: a reserved bit raises `E_RSVD` whatever the count of points, so also at 15 and at none. -/
theorem decodeErrorsComeBeforeTheOwnError : Obligations.DecodeErrorsComeBeforeTheOwnError :=
  fun s c _ hp hres _ => ⟨_, step_raises hp ((errorOf_eq_rsvd_iff c s.agN).2 hres), rfl, rfl⟩

/-- Settles O15: only an error's answer has a status, and the code of an error is one more than its flag's number. -/
theorem errorsWriteOnlyTheirStickyBit : Obligations.ErrorsWriteOnlyTheirStickyBit := by
  intro s c rest hp
  cases herr : errorOf c s.agN with
  | some e =>
    refine ⟨_, errorWord e, step_raises hp herr, rfl,
      fun _ => ⟨flagBit e, flagBit_lt e, errorWord_toNat_eq_flagBit e, ?_⟩⟩
    rw [← errorFlag_eq_ofNat]
    rfl
  | none =>
    obtain ⟨i, hstep⟩ := step_responds hp herr
    exact ⟨_, responseWord 0x00#8 (okData i { s with input := rest }), hstep, by simp,
      fun hne => absurd (responseStatus_responseWord _ _) hne⟩

/-- Settles O19: `AnsweredSince` the start holds where the run begins and is kept by every word's answer. -/
theorem zeroStatusAtTheEndMeansNoError : Obligations.ZeroStatusAtTheEndMeansNoError := by
  intro s ws rest hr hi hrst
  obtain ⟨t, hrun, -, rs, hout, hlen, hzero⟩ := run_commands (P := AnsweredSince s ws.length)
    (fun _ _ rest s _ hP h => execWord_keeps_answeredSince (s := { s with input := rest }) hP h) hr hi
    ⟨fun _ hw => ne_of_mem_of_not_mem hw hrst, [], by simp, by simp, by simp⟩
  exact ⟨t, rs, hrun, hout, hlen, hzero⟩

/-- Settles O5. -/
theorem nothingPresentedNothingChanges : Obligations.NothingPresentedNothingChanges :=
  fun _ => step_nil

end Sys2Proof.Proofs

/-! PROOFS. The reset input and two hosts at once (70_reset_and_hazards.md R175, R184): what a step does with an event
that gets no answer; the release stands in `step_release`. -/

namespace Sys2Proof.Machine

/-- An assertion of the reset input, whatever its level was (R175). -/
theorem step_assert {s : State} {rest : List HostEvent} (hi : s.input = .resetLine true :: rest) :
    step s = .next { s.clearRegisters with inReset := true, input := rest } := by
  rw [step_cons hi, serve, driveReset, Bool.true_or, if_pos rfl]
  rfl

/-- A command presented while reset is asserted is lost (R175). -/
theorem step_command_inReset {s : State} {w : Word} {rest : List HostEvent} (hr : s.inReset = true)
    (hi : s.input = .command w :: rest) : step s = .next { s with input := rest } := by
  rw [step_cons hi, serve, serveCommand, if_pos hr]

/-- Two commands at once are refused (R184). -/
theorem step_concurrent {s : State} {a b : Word} {rest : List HostEvent} (hi : s.input = .concurrent a b :: rest) :
    step s = .refused .concurrentHosts := by
  rw [step_cons hi, serve]

/-- With its registers cleared and the reset input released, a state is the reset state but for what the host will do
and has received. -/
theorem State.clearRegisters_released (s : State) (rest : List HostEvent) :
    { s.clearRegisters with inReset := false, input := rest } =
      { State.reset with input := rest, output := s.output } := rfl

end Sys2Proof.Machine

namespace Sys2Proof.Proofs

open Sys2Proof.Machine

/-- Settles O2, one clause for each event: the assertion, a command while asserted, the release. -/
theorem hardwareResetLosesCommandsAndZeroes : Obligations.HardwareResetLosesCommandsAndZeroes := by
  refine ⟨fun s rest hi => ?_, fun s w rest hr hi => ?_, fun s rest hr hi => ?_⟩
  · exact ⟨_, step_assert hi, rfl, s.clearRegisters_output, rfl⟩
  · exact step_command_inReset hr hi
  · rw [step_release hr hi, s.clearRegisters_released]

/-- Settles O6. -/
theorem twoHostsAtOnceAreRefused : Obligations.TwoHostsAtOnceAreRefused :=
  fun _ _ _ _ => step_concurrent

end Sys2Proof.Proofs
